-- ==== Sys2Proof/Word.lean ====
section
/-! DEFINITION. The machine's one word: the unsigned byte, u8 of 00_scope.md R8. -/

namespace Sys2Proof

/-- An unsigned 8-bit value: every register, memory cell, immediate and the flags register (00_scope.md R8). -/
abbrev Byte := BitVec 8

end Sys2Proof
end

