-- ==== Sys2Proof/Config.lean ====
section
/-! DEFINITION. The implementation parameters of 00_scope.md R7, at the values this hardware takes. The opcode map, the
remaining parameter, stands in Decode.lean. Nothing of this hardware is left open, so there is no free value here. -/

namespace Sys2Proof.Config

/-- `MEM_SIZE`: the number of memory cells (00_scope.md R7; the spec's decision D3; log entry 5). -/
def memSize : Nat := 256

/-- `NREGS`: the number of registers (00_scope.md R7). -/
abbrev numRegs : Nat := 8

/-- `SP_INDEX`: the register that is the stack pointer (00_scope.md R7). -/
def spIndex : Fin numRegs := 7

/-- `STACK_TOP`: the reset value of SP, and the upper bound of SP for stack instructions (00_scope.md R7). -/
def stackTop : Byte := 0xF4

/-- What a memory cell that nothing has written holds: memory is zero-initialised (20_memory.md R42, R46). -/
def unwrittenCell : Byte := 0x00

end Sys2Proof.Config
end

