-- ==== Sys2Proof/Machine/State.lean ====
section
/-! DEFINITION. The machine's state as plain data: the tuple `(R[0..7], pc, FL, M, status, out)` of 10_state.md R17, and
nothing else. -/

namespace Sys2Proof.Machine

/-- The space an out-of-bounds access was made in (60_exceptions.md R112, R113). -/
inductive Space where
  | memory
  | register
  deriving DecidableEq, Repr

/-- What an instruction raises, with the information the spec records (60_exceptions.md R112). -/
inductive FaultCause where
  /-- A memory address of `MEM_SIZE` or more, or a register field of 8 or more; `index` is that number. -/
  | outOfBoundsAccess (space : Space) (index : Nat)
  /-- An opcode byte that is in no row of the opcode map. -/
  | unknownOpcode (op : Byte)
  /-- PUSH or CALL found SP = 0 or SP - 1 > `STACK_TOP`; `sp` is SP on entry. -/
  | stackOverflow (sp : Byte)
  /-- POP or RET found SP >= `STACK_TOP`; `sp` is SP on entry. -/
  | stackUnderflow (sp : Byte)
  /-- The ALU was given an operation it does not implement (no program can do this: 60_exceptions.md R117). -/
  | invalidALUOperation (op : Byte)
  deriving DecidableEq, Repr

/-- The fault record (60_exceptions.md R113). Its fields code, name, space and value are read off `cause`
(`FaultRecord.code`, `.name`, `.space` and `.value` in Ops.lean). -/
structure FaultRecord where
  /-- which fault, with the recorded information -/
  cause : FaultCause
  /-- the address of the faulting instruction's opcode -/
  pc : Nat
  /-- the byte fetched at `pc`, or none if the fetch itself faulted -/
  opcode : Option Byte
  deriving DecidableEq, Repr

/-- The engine status (10_state.md R34). -/
inductive Status where
  | running
  | halted
  | faulted (f : FaultRecord)
  deriving DecidableEq, Repr

/-- Memory: the cells that hold something else than `Config.unwrittenCell`, by rising address (`Memory.wf` in Ops.lean). -/
abbrev Memory := List Host.Cell

/-- The architectural state (10_state.md R17). -/
structure State where
  /-- the register file R0 to R7; R7 is the stack pointer (10_state.md R18, R22) -/
  regs : Vector Byte Config.numRegs
  /-- the program counter, a natural number that never wraps (10_state.md R23, R25) -/
  pc : Nat
  /-- the flags register: E is bit 0, G bit 1, L bit 2 (10_state.md R28) -/
  fl : Byte
  /-- memory (10_state.md R37, 20_memory.md R42) -/
  mem : Memory
  /-- the engine status (10_state.md R34) -/
  status : Status
  /-- the values PRN has emitted since reset, oldest first (10_state.md R36) -/
  out : List Byte
  deriving DecidableEq, Repr

/-- The ways a step can stop outside the spec's own outcomes: there are none. Every error of this hardware is a Faulted
status, an effect the spec describes in full (60_exceptions.md R114), so it is a next state (log entry 1). -/
inductive Fault where
  deriving DecidableEq, Repr

/-- What the model gives no meaning to. -/
inductive Refusal where
  /-- Raised by `exec` for an instruction that has no meaning yet: none is left. Safe: the machine stops. -/
  | notModelled (mnemonic : String)
  /-- Raised by the loader (`loadImage`, never by a step) for an image longer than memory: no core state corresponds to it
  (20_memory.md R46, 93_implementation_defined.md I18). Safe: there is no state to claim anything about. -/
  | imageTooLong (length : Nat)
  deriving DecidableEq, Repr

/-- The state right after reset, with no image loaded (10_state.md R39; log entries 3 and 4). -/
def State.reset : State where
  regs := #v[0x00, 0x00, 0x00, 0x00, 0x00, 0x00, 0x00, Config.stackTop]
  pc := 0
  fl := 0x00
  mem := []
  status := .running
  out := []

end Sys2Proof.Machine
end

