-- ==== Sys2Proof/Machine/Flags.lean ====
section
/-! DEFINITION. The flags register: its three bits and the value CMP gives it (10_state.md R28, 43_alu.md R104). -/

namespace Sys2Proof.Machine

/-- FL.E, bit 0 (10_state.md R28). -/
def flagE (fl : Byte) : Bool := fl.getLsbD 0

/-- FL.G, bit 1 (10_state.md R28). -/
def flagG (fl : Byte) : Bool := fl.getLsbD 1

/-- FL.L, bit 2 (10_state.md R28). -/
def flagL (fl : Byte) : Bool := fl.getLsbD 2

/-- The whole of FL after a compare: E, G or L alone, by unsigned comparison (43_alu.md R104). -/
def compareFlags (a b : Byte) : Byte :=
  if a.toNat = b.toNat then 0x01
  else if b.toNat < a.toNat then 0x02
  else 0x04

end Sys2Proof.Machine
end

