-- ==== Sys2Proof/Syntax.lean ====
section
/-! DEFINITION. The sixteen instructions (00_scope.md R2), one constructor per row of spec/opcode_table.json.

A register operand is kept as the WHOLE operand byte: the spec counts `LDI R8,1` as an LDI with an illegal operand
(30_encoding.md R65, R70), so the byte belongs to the instruction and the register check to its execution (log entry 6). -/

namespace Sys2Proof

/-- The names of the instructions (00_scope.md R2). -/
inductive Mnemonic where
  | hlt | ret | push | pop | prn | call | jmp | jeq | jne | ldi | add | mul | cmp | and | or | xor
  deriving DecidableEq, Repr

/-- The four instruction formats (30_encoding.md R64). -/
inductive Format where
  /-- no operand byte -/
  | f0
  /-- one register field -/
  | f1r
  /-- a register field, then an immediate -/
  | f2ri
  /-- two register fields -/
  | f2rr
  deriving DecidableEq, Repr

/-- One instruction with its operand bytes; `r`, `ra` and `rb` are register fields, `imm` is an immediate
(30_encoding.md R64 to R67). -/
inductive Instr where
  | hlt
  | ret
  | push (r : Byte)
  | pop (r : Byte)
  | prn (r : Byte)
  | call (r : Byte)
  | jmp (r : Byte)
  | jeq (r : Byte)
  | jne (r : Byte)
  | ldi (r imm : Byte)
  | add (ra rb : Byte)
  | mul (ra rb : Byte)
  | cmp (ra rb : Byte)
  | and (ra rb : Byte)
  | or (ra rb : Byte)
  | xor (ra rb : Byte)
  deriving DecidableEq, Repr

/-- The name of an instruction. -/
def Instr.mnemonic : Instr → Mnemonic
  | .hlt => .hlt
  | .ret => .ret
  | .push _ => .push
  | .pop _ => .pop
  | .prn _ => .prn
  | .call _ => .call
  | .jmp _ => .jmp
  | .jeq _ => .jeq
  | .jne _ => .jne
  | .ldi _ _ => .ldi
  | .add _ _ => .add
  | .mul _ _ => .mul
  | .cmp _ _ => .cmp
  | .and _ _ => .and
  | .or _ _ => .or
  | .xor _ _ => .xor

/-- The register fields of an instruction in byte order; LDI's immediate is none of them (40_execution_engine.md R79). -/
def Instr.regFields : Instr → List Byte
  | .hlt | .ret => []
  | .push r | .pop r | .prn r | .call r | .jmp r | .jeq r | .jne r => [r]
  | .ldi r _ => [r]
  | .add ra rb | .mul ra rb | .cmp ra rb | .and ra rb | .or ra rb | .xor ra rb => [ra, rb]

end Sys2Proof
end

