-- ==== Sys2Proof/Decode.lean ====
section
/-! DEFINITION. The opcode map, the formats, the decoder and the encoder (30_encoding.md).

The opcode byte alone fixes the length and the format, through the map (30_encoding.md R63, R71): no bit of an opcode
byte is read as an operand count. Decoding is total on byte lists and rejects by name. -/

namespace Sys2Proof

/-- `OPCODE_MAP`: the byte that selects each instruction (30_encoding.md R68; the spec's decision D1, taken from general
knowledge of the LS-8; log entry 5). -/
def Mnemonic.opcode : Mnemonic → Byte
  | .hlt => 0x01
  | .ret => 0x11
  | .push => 0x45
  | .pop => 0x46
  | .prn => 0x47
  | .call => 0x50
  | .jmp => 0x54
  | .jeq => 0x55
  | .jne => 0x56
  | .ldi => 0x82
  | .add => 0xA0
  | .mul => 0xA2
  | .cmp => 0xA7
  | .and => 0xA8
  | .or => 0xAA
  | .xor => 0xAB

/-- The format column of the opcode map (30_encoding.md R64, R68). -/
def Mnemonic.format : Mnemonic → Format
  | .hlt | .ret => .f0
  | .push | .pop | .prn | .call | .jmp | .jeq | .jne => .f1r
  | .ldi => .f2ri
  | .add | .mul | .cmp | .and | .or | .xor => .f2rr

/-- The number of operand bytes of a format (30_encoding.md R64). -/
def Format.operandCount : Format → Nat
  | .f0 => 0
  | .f1r => 1
  | .f2ri | .f2rr => 2

/-- The width of an instruction in bytes: 1, 2 or 3 (30_encoding.md R63, R64). -/
def Mnemonic.width (m : Mnemonic) : Nat := m.format.operandCount + 1

/-- The width of an instruction in bytes (30_encoding.md R64). -/
def Instr.width (i : Instr) : Nat := i.mnemonic.width

/-- The rows of the opcode map, in the order of 30_encoding.md R68. -/
def opcodeRows : List Mnemonic :=
  [.hlt, .ret, .push, .pop, .prn, .call, .jmp, .jeq, .jne, .ldi, .add, .mul, .cmp, .and, .or, .xor]

/-- The dispatch table's lookup: all eight bits of the opcode byte are compared (30_encoding.md R69). -/
def lookupOpcode (op : Byte) : Option Mnemonic := opcodeRows.find? fun m => m.opcode == op

/-- How many operand bytes follow an opcode byte; none follow a byte that is no opcode (40_execution_engine.md R77, R78). -/
def operandCountOf (op : Byte) : Nat := ((lookupOpcode op).map fun m => m.format.operandCount).getD 0

/-- Why the bytes are no instruction. -/
inductive DecodeError where
  /-- The first byte equals no row of the opcode map (30_encoding.md R69). -/
  | unknownOpcode (op : Byte)
  /-- The instruction needs a byte at this offset and the list ends before it (40_execution_engine.md R78). -/
  | missingByte (offset : Nat)
  deriving DecidableEq, Repr

/-- The instruction a mnemonic and its two operand bytes make; a byte the format does not have is not used
(30_encoding.md R64, R67: byte 1 is the first operand, byte 2 the second). -/
def Mnemonic.instr (m : Mnemonic) (b1 b2 : Byte) : Instr :=
  match m with
  | .hlt => .hlt
  | .ret => .ret
  | .push => .push b1
  | .pop => .pop b1
  | .prn => .prn b1
  | .call => .call b1
  | .jmp => .jmp b1
  | .jeq => .jeq b1
  | .jne => .jne b1
  | .ldi => .ldi b1 b2
  | .add => .add b1 b2
  | .mul => .mul b1 b2
  | .cmp => .cmp b1 b2
  | .and => .and b1 b2
  | .or => .or b1 b2
  | .xor => .xor b1 b2

/-- The operand bytes of a known instruction, and the bytes after it (40_execution_engine.md R78). -/
def decodeOperands (m : Mnemonic) (rest : List Byte) : Except DecodeError (Instr × List Byte) :=
  match m.format.operandCount, rest with
  | 0, rest => .ok (m.instr 0 0, rest)
  | 1, b1 :: rest => .ok (m.instr b1 0, rest)
  | _, b1 :: b2 :: rest => .ok (m.instr b1 b2, rest)
  | _, [] => .error (.missingByte 1)
  | _, [_] => .error (.missingByte 2)

/-- The decoder: the instruction at the head of a byte list and the bytes after it (30_encoding.md R62, R63, R69). -/
def decode : List Byte → Except DecodeError (Instr × List Byte)
  | [] => .error (.missingByte 0)
  | op :: rest =>
    match lookupOpcode op with
    | none => .error (.unknownOpcode op)
    | some m => decodeOperands m rest

/-- The operand bytes of an instruction, in byte order (30_encoding.md R67). -/
def Instr.operandBytes : Instr → List Byte
  | .hlt | .ret => []
  | .push r | .pop r | .prn r | .call r | .jmp r | .jeq r | .jne r => [r]
  | .ldi r imm => [r, imm]
  | .add ra rb | .mul ra rb | .cmp ra rb | .and ra rb | .or ra rb | .xor ra rb => [ra, rb]

/-- The encoder: opcode byte, then the operand bytes (30_encoding.md R62, R64, R68). -/
def encode (i : Instr) : List Byte := i.mnemonic.opcode :: i.operandBytes

/-- The longest instruction is three bytes (30_encoding.md R63). -/
def maxWidth : Nat := 3

/-- The first `n` bytes of a number, its least significant byte first. -/
def bytesOfNat : Nat → Nat → List Byte
  | 0, _ => []
  | n + 1, w => BitVec.ofNat 8 w :: bytesOfNat n (w / 256)

/-- The bytes of an instruction whose bits are `w` numbered as spec/opcode_table.json numbers them: the opcode is bits
7..0, the first operand bits 15..8, the second bits 23..16; bits from `nbits` on are zero. -/
def tableWordBytes (nbits w : Nat) : List Byte := bytesOfNat maxWidth (w % 2 ^ nbits)

/-- The instruction the decoder reads from a table word (none where it refuses). -/
def decodeTableWord (nbits w : Nat) : Option Instr :=
  match decode (tableWordBytes nbits w) with
  | .ok (i, _) => some i
  | .error _ => none

end Sys2Proof
end

