-- ==== Sys2Proof/Machine/Ops.lean ====
section
/-! DEFINITION. The named operations every instruction is built from: one byte of memory, one register, the stack
interface, the program counter, the output port, fault entry and reset (00_scope.md R9, 20_memory.md, 60_exceptions.md). -/

namespace Sys2Proof.Machine

/-! ### Memory as data -/

/-- The byte a memory holds at an address; an unlisted cell holds `Config.unwrittenCell`. -/
def Memory.get : Memory → Nat → Byte
  | [], _ => Config.unwrittenCell
  | (b, w) :: m, a => if b = a then w else Memory.get m a

/-- Puts a listed byte at its place by rising address, over what stood there. -/
def Memory.insert : Memory → Nat → Byte → Memory
  | [], a, v => [(a, v)]
  | (b, w) :: m, a, v =>
    if a < b then (a, v) :: (b, w) :: m
    else if a = b then (a, v) :: m
    else (b, w) :: Memory.insert m a v

/-- Takes an address off the list, so that it reads as an unwritten cell. -/
def Memory.erase (m : Memory) (a : Nat) : Memory := m.filter fun c => c.1 != a

/-- Writes one byte and keeps the canonical form: the value of an unwritten cell is never listed. -/
def Memory.set (m : Memory) (a : Nat) (v : Byte) : Memory :=
  if v = Config.unwrittenCell then m.erase a else m.insert a v

/-- Addresses strictly rise, starting at `lo` or later; every listed address exists; no listed byte is an unwritten
cell's. -/
def Memory.wfFrom : Nat → Memory → Bool
  | _, [] => true
  | lo, (a, v) :: m =>
    decide (lo ≤ a) && decide (a < Config.memSize) && (v != Config.unwrittenCell) && Memory.wfFrom (a + 1) m

/-- The canonical form of memory. -/
def Memory.wf (m : Memory) : Bool := Memory.wfFrom 0 m

/-- Writes bytes at rising addresses; bytes past the last cell go nowhere. Used by the loader and by `withFetchWord`
(20_memory.md R46: "successive Memory cells"). -/
def Memory.load : Memory → Nat → List Byte → Memory
  | m, _, [] => m
  | m, a, b :: bs => Memory.load (if a < Config.memSize then m.set a b else m) (a + 1) bs

/-! ### Registers, program counter, flags, output -/

/-- `R[i]`: reads a register (00_scope.md R9). -/
def State.reg (s : State) (i : Fin Config.numRegs) : Byte := s.regs[i]

/-- `R[i] <- v`: writes a register; none is hardwired (10_state.md R19). -/
def State.setReg (s : State) (i : Fin Config.numRegs) (v : Byte) : State := { s with regs := s.regs.set i v }

/-- `SP`, another name for `R[7]` (10_state.md R22). -/
def State.sp (s : State) : Byte := s.reg Config.spIndex

/-- `SP <- v` is `R[7] <- v`, with no range check (10_state.md R22). -/
def State.setSp (s : State) (v : Byte) : State := s.setReg Config.spIndex v

/-- `pc <- target` (00_scope.md R9). -/
def State.setPc (s : State) (target : Nat) : State := { s with pc := target }

/-- `pc <- pc + w`, computed without reduction (10_state.md R25, 40_execution_engine.md R80). -/
def State.advance (s : State) (w : Nat) : State := s.setPc (s.pc + w)

/-- `FL <- v` (00_scope.md R9). -/
def State.setFl (s : State) (v : Byte) : State := { s with fl := v }

/-- `emit(v)`: `out <- out ++ [v]`; the port never refuses a value (41_data_movement.md R88). -/
def State.emit (s : State) (v : Byte) : State := { s with out := s.out ++ [v] }

/-- `halt`: the status becomes Halted (42_control_flow.md R96). -/
def State.halt (s : State) : State := { s with status := .halted }

/-- The byte memory holds at an address, as the host reads it (40_execution_engine.md R75). -/
def State.byteAt (s : State) (a : Nat) : Byte := s.mem.get a

/-- Replaces one byte of memory. -/
def State.setByte (s : State) (a : Nat) (v : Byte) : State := { s with mem := s.mem.set a v }

/-! ### The memory interface -/

/-- `MemRead(a, 1)` with its bounds check (20_memory.md R43). -/
def memRead (a : Nat) (s : State) : Except FaultCause Byte :=
  if Config.memSize ≤ a then .error (.outOfBoundsAccess .memory a) else .ok (s.byteAt a)

/-- `MemWrite(a, 1, v)` with its bounds check (20_memory.md R43). -/
def memWrite (a : Nat) (v : Byte) (s : State) : Except FaultCause State :=
  if Config.memSize ≤ a then .error (.outOfBoundsAccess .memory a) else .ok (s.setByte a v)

/-- `MemRead` of `n` bytes at rising addresses, stopping at the first that is out of bounds (40_execution_engine.md R78). -/
def memReadBytes : Nat → Nat → State → Except FaultCause (List Byte)
  | 0, _, _ => .ok []
  | n + 1, a, s => do
    let b ← memRead a s
    let bs ← memReadBytes n (a + 1) s
    return b :: bs

/-! ### The stack memory interface -/

/-- `PushSlot()`: the check and decrement shared by PUSH and CALL; gives the address of the cell to write, which is the new
SP, and the state with that SP (20_memory.md R54). -/
def pushSlot (s : State) : Except FaultCause (Nat × State) :=
  if s.sp.toNat = 0 then .error (.stackOverflow s.sp)
  else if Config.stackTop.toNat < s.sp.toNat - 1 then .error (.stackOverflow s.sp)
  else .ok ((s.setSp (s.sp - 1)).sp.toNat, s.setSp (s.sp - 1))

/-- `PopSlot()`: the check shared by POP and RET; gives the address of the cell to read (20_memory.md R55). -/
def popSlot (s : State) : Except FaultCause Nat :=
  if Config.stackTop.toNat ≤ s.sp.toNat then .error (.stackUnderflow s.sp) else .ok s.sp.toNat

/-! ### Fault entry, and the common frame of an instruction -/

/-- Fault entry: the status becomes Faulted(f) and nothing else changes (60_exceptions.md R113, R114). There is no return
from it (60_exceptions.md R116): only `State.applyReset` leaves Faulted. -/
def raise (cause : FaultCause) (opcode : Option Byte) (s : State) : State :=
  { s with status := .faulted { cause := cause, pc := s.pc, opcode := opcode } }

/-- Runs an instruction's pseudocode as a function from the state on entry to a new state or a fault; on a fault every
write it made is discarded (00_scope.md R11, 40_execution_engine.md R77). -/
def execute (m : Mnemonic) (s : State) (result : Except FaultCause State) : Host.Outcome State Fault Refusal :=
  match result with
  | .ok t => .next t
  | .error cause => .next (raise cause (some m.opcode) s)

/-- The `reset` port: every register, flag and status field to its reset value; memory is not changed
(70_reset_and_hazards.md R127). -/
def State.applyReset (s : State) : State := { State.reset with mem := s.mem }

/-! ### The fields of a fault record -/

/-- The fault's code, 1 to 5 (60_exceptions.md R112; the numbers are the spec's labels, D9). -/
def FaultRecord.code (f : FaultRecord) : Nat :=
  match f.cause with
  | .outOfBoundsAccess _ _ => 1
  | .unknownOpcode _ => 2
  | .stackOverflow _ => 3
  | .stackUnderflow _ => 4
  | .invalidALUOperation _ => 5

/-- The fault's name (60_exceptions.md R112). -/
def FaultRecord.name (f : FaultRecord) : String :=
  match f.cause with
  | .outOfBoundsAccess _ _ => "OutOfBoundsAccess"
  | .unknownOpcode _ => "UnknownOpcode"
  | .stackOverflow _ => "StackOverflow"
  | .stackUnderflow _ => "StackUnderflow"
  | .invalidALUOperation _ => "InvalidALUOperation"

/-- The space, for `OutOfBoundsAccess` only (60_exceptions.md R113). -/
def FaultRecord.space (f : FaultRecord) : Option Space :=
  match f.cause with
  | .outOfBoundsAccess sp _ => some sp
  | _ => none

/-- The information recorded (60_exceptions.md R112, R113). -/
def FaultRecord.value (f : FaultRecord) : Nat :=
  match f.cause with
  | .outOfBoundsAccess _ n => n
  | .unknownOpcode op => op.toNat
  | .stackOverflow sp => sp.toNat
  | .stackUnderflow sp => sp.toNat
  | .invalidALUOperation op => op.toNat

end Sys2Proof.Machine
end

