-- ==== Sys2Proof/Machine/Operands.lean ====
section
/-! DEFINITION. The operand forms. There are two: a register field, which is the whole operand byte used as an index, and
LDI's immediate, which is the byte as it stands and needs no operation (30_encoding.md R65, R66). -/

namespace Sys2Proof.Machine

/-- `CheckRegisterFields` for one field: the register a field names; 8 to 255 raise (40_execution_engine.md R79). -/
def regOperand (f : Byte) : Except FaultCause (Fin Config.numRegs) :=
  if h : f.toNat < Config.numRegs then .ok ⟨f.toNat, h⟩ else .error (.outOfBoundsAccess .register f.toNat)

/-- The two register fields of format F2RR, checked in byte order (40_execution_engine.md R79, 60_exceptions.md R115). -/
def regOperands (fa fb : Byte) : Except FaultCause (Fin Config.numRegs × Fin Config.numRegs) := do
  let a ← regOperand fa
  let b ← regOperand fb
  return (a, b)

end Sys2Proof.Machine
end

