-- ==== Sys2Proof/Machine/Alu.lean ====
section
/-! DEFINITION. The ALU contract and ADD, MUL and CMP (43_alu.md). -/

namespace Sys2Proof.Machine

/-- What the ALU answers: an optional result and an optional value for FL (43_alu.md R101). -/
structure AluResult where
  result : Option Byte
  flags : Option Byte
  deriving DecidableEq, Repr

/-- The ALU: a pure function of the operation and two bytes. The operation is named by its opcode byte, which the spec leaves
open (log entry 7); any other byte raises (43_alu.md R101). -/
def alu (op a b : Byte) : Except FaultCause AluResult :=
  match lookupOpcode op with
  | some .add => .ok { result := some (BitVec.ofNat 8 ((a.toNat + b.toNat) % 256)), flags := none }
  | some .mul => .ok { result := some (BitVec.ofNat 8 ((a.toNat * b.toNat) % 256)), flags := none }
  | some .cmp => .ok { result := none, flags := some (compareFlags a b) }
  | some .and => .ok { result := some (a &&& b), flags := none }
  | some .or => .ok { result := some (a ||| b), flags := none }
  | some .xor => .ok { result := some (a ^^^ b), flags := none }
  | _ => .error (.invalidALUOperation op)

/-- Writes back what the ALU answered: the result into the first operand's register, the flags into FL (43_alu.md R101). -/
def AluResult.writeBack (r : AluResult) (dest : Fin Config.numRegs) (s : State) : State :=
  let s1 := match r.result with
    | some v => s.setReg dest v
    | none => s
  match r.flags with
  | some f => s1.setFl f
  | none => s1

/-- `ExecuteTwoRegister(op, ra, rb)`: both reads happen before any write (43_alu.md R101); then pc moves past the
instruction (40_execution_engine.md R80). -/
def executeTwoRegister (m : Mnemonic) (ra rb : Byte) (s : State) : Host.Outcome State Fault Refusal :=
  execute m s do
    let (a, b) ← regOperands ra rb
    let r ← alu m.opcode (s.reg a) (s.reg b)
    return (r.writeBack a s).advance m.width

/-- ADD: `R[ra] <- (R[ra] + R[rb]) mod 256` (43_alu.md R102). -/
def execAdd (ra rb : Byte) (s : State) : Host.Outcome State Fault Refusal := executeTwoRegister .add ra rb s

/-- MUL: `R[ra] <- (R[ra] * R[rb]) mod 256` (43_alu.md R103). -/
def execMul (ra rb : Byte) (s : State) : Host.Outcome State Fault Refusal := executeTwoRegister .mul ra rb s

/-- CMP: sets FL from the unsigned comparison of `R[ra]` with `R[rb]` (43_alu.md R104). -/
def execCmp (ra rb : Byte) (s : State) : Host.Outcome State Fault Refusal := executeTwoRegister .cmp ra rb s

end Sys2Proof.Machine
end

