-- ==== Sys2Proof/Machine/Bitwise.lean ====
section
/-! DEFINITION. AND, OR and XOR: `ExecuteTwoRegister` with the operation named (44_bitwise.md). -/

namespace Sys2Proof.Machine

/-- AND: `R[ra] <- R[ra] AND R[rb]` (44_bitwise.md R107). -/
def execAnd (ra rb : Byte) (s : State) : Host.Outcome State Fault Refusal := executeTwoRegister .and ra rb s

/-- OR: `R[ra] <- R[ra] OR R[rb]` (44_bitwise.md R108). -/
def execOr (ra rb : Byte) (s : State) : Host.Outcome State Fault Refusal := executeTwoRegister .or ra rb s

/-- XOR: `R[ra] <- R[ra] XOR R[rb]` (44_bitwise.md R109). -/
def execXor (ra rb : Byte) (s : State) : Host.Outcome State Fault Refusal := executeTwoRegister .xor ra rb s

end Sys2Proof.Machine
end

