-- ==== Sys2Proof/Machine/ControlFlow.lean ====
section
/-! DEFINITION. CALL, RET, JMP, JEQ, JNE and HLT (42_control_flow.md). Each writes pc itself, or, for HLT, leaves it alone
(40_execution_engine.md R80, R82). -/

namespace Sys2Proof.Machine

/-- CALL: push `pc + 2`, then `pc <- R[r]`, read after the push. A return address that is no byte raises, after the stack
check (42_control_flow.md R91, 60_exceptions.md R115). -/
def execCall (r : Byte) (s : State) : Host.Outcome State Fault Refusal :=
  execute .call s do
    let i ← regOperand r
    let (a, s1) ← pushSlot s
    let ret := s.pc + 2
    if 255 < ret then throw (.outOfBoundsAccess .memory ret)
    let s2 ← memWrite a (BitVec.ofNat 8 ret) s1
    return s2.setPc (s2.reg i).toNat

/-- RET: `pc <- MemRead(PopSlot(), 1); SP <- SP + 1` (42_control_flow.md R92). -/
def execRet (s : State) : Host.Outcome State Fault Refusal :=
  execute .ret s do
    let a ← popSlot s
    let v ← memRead a s
    return (s.setPc v.toNat).setSp (s.sp + 1)

/-- JMP: `pc <- R[r]` (42_control_flow.md R93). -/
def execJmp (r : Byte) (s : State) : Host.Outcome State Fault Refusal :=
  execute .jmp s do
    let i ← regOperand r
    return s.setPc (s.reg i).toNat

/-- JEQ: `pc <- R[r]` if FL.E = 1, else `pc <- pc + 2` (42_control_flow.md R94). -/
def execJeq (r : Byte) (s : State) : Host.Outcome State Fault Refusal :=
  execute .jeq s do
    let i ← regOperand r
    return s.setPc (if flagE s.fl then (s.reg i).toNat else s.pc + 2)

/-- JNE: `pc <- R[r]` if FL.E = 0, else `pc <- pc + 2` (42_control_flow.md R95). -/
def execJne (r : Byte) (s : State) : Host.Outcome State Fault Refusal :=
  execute .jne s do
    let i ← regOperand r
    return s.setPc (if flagE s.fl then s.pc + 2 else (s.reg i).toNat)

/-- HLT: the status becomes Halted and pc stays at the HLT (42_control_flow.md R96). -/
def execHlt (s : State) : Host.Outcome State Fault Refusal :=
  execute .hlt s (.ok s.halt)

end Sys2Proof.Machine
end

