-- ==== Sys2Proof/Machine/DataMovement.lean ====
section
/-! DEFINITION. LDI, PRN, PUSH and POP (41_data_movement.md). Each checks its register field, acts, and moves pc past its
own bytes (40_execution_engine.md R79, R80; log entry 8). -/

namespace Sys2Proof.Machine

/-- LDI: `R[r] <- imm8` (41_data_movement.md R87). -/
def execLdi (r imm : Byte) (s : State) : Host.Outcome State Fault Refusal :=
  execute .ldi s do
    let i ← regOperand r
    return (s.setReg i imm).advance (Mnemonic.width .ldi)

/-- PRN: `emit(R[r])` (41_data_movement.md R88). -/
def execPrn (r : Byte) (s : State) : Host.Outcome State Fault Refusal :=
  execute .prn s do
    let i ← regOperand r
    return (s.emit (s.reg i)).advance (Mnemonic.width .prn)

/-- PUSH: `a <- PushSlot(); MemWrite(a, 1, R[r])`, where `R[r]` is read after the decrement (41_data_movement.md R89). -/
def execPush (r : Byte) (s : State) : Host.Outcome State Fault Refusal :=
  execute .push s do
    let i ← regOperand r
    let (a, s1) ← pushSlot s
    let s2 ← memWrite a (s1.reg i) s1
    return s2.advance (Mnemonic.width .push)

/-- POP: `a <- PopSlot(); R[r] <- MemRead(a, 1); SP <- (SP + 1) mod 256`, where SP is read after the write
(41_data_movement.md R90). -/
def execPop (r : Byte) (s : State) : Host.Outcome State Fault Refusal :=
  execute .pop s do
    let i ← regOperand r
    let a ← popSlot s
    let v ← memRead a s
    let s1 := s.setReg i v
    let s2 := s1.setSp (s1.sp + 1)
    return s2.advance (Mnemonic.width .pop)

end Sys2Proof.Machine
end

