-- ==== Sys2Proof/Machine/Fetch.lean ====
section
/-! DEFINITION. Fetching an instruction: the opcode byte, then exactly the operand bytes the opcode map gives it, then the
decoder (40_execution_engine.md R77, R78). -/

namespace Sys2Proof.Machine

/-- A fault of the fetch: its cause, and the opcode byte if that was fetched (60_exceptions.md R113). -/
structure FetchFault where
  cause : FaultCause
  opcode : Option Byte
  deriving DecidableEq, Repr

/-- What the engine raises for bytes that do not decode (40_execution_engine.md R77, R78). -/
def decodeFault (pc : Nat) : DecodeError → FaultCause
  | .unknownOpcode op => .unknownOpcode op
  | .missingByte k => .outOfBoundsAccess .memory (pc + k)

/-- Fetch and decode at pc: no byte beyond the instruction is read, and an unknown opcode is found before any operand is
read (40_execution_engine.md R77, R78; 60_exceptions.md R115). -/
def fetch (s : State) : Except FetchFault Instr :=
  match memRead s.pc s with
  | .error cause => .error { cause := cause, opcode := none }
  | .ok op =>
    match memReadBytes (operandCountOf op) (s.pc + 1) s with
    | .error cause => .error { cause := cause, opcode := some op }
    | .ok operands =>
      match decode (op :: operands) with
      | .ok (i, _) => .ok i
      | .error e => .error { cause := decodeFault s.pc e, opcode := some op }

/-- A state whose next step is asked to run the instruction in the given bytes: they stand at pc, and the engine is Running
(log entry 3). Bytes past the last memory cell go nowhere. -/
def placeAtPc (bytes : List Byte) (s : State) : State :=
  { s with mem := s.mem.load s.pc bytes, status := .running }

end Sys2Proof.Machine
end

