-- ==== Sys2Proof/Machine/Step.lean ====
section
/-! DEFINITION. One step of the engine (40_execution_engine.md R76, R77). -/

namespace Sys2Proof.Machine

/-- One step request. Running: fetch, decode and execute; a fault of the fetch takes fault entry. Halted or Faulted: the
request changes no state (40_execution_engine.md R76, R77; log entry 2). -/
def step (s : State) : Host.Outcome State Fault Refusal :=
  match s.status with
  | .running =>
    match fetch s with
    | .ok i => exec i s
    | .error e => .next (raise e.cause e.opcode s)
  | .halted => .next s
  | .faulted _ => .next s

/-- The state with a table word's instruction stored where the next step fetches, and the engine Running, so that the next
step runs it (log entry 3). -/
def State.withFetchWord (s : State) (nbits w : Nat) : State := placeAtPc (tableWordBytes nbits w) s

end Sys2Proof.Machine
end

