-- ==== Sys2Proof/Machine/HostPort.lean ====
section
/-! DEFINITION. The host's side of the block: loading an image and the run loop (20_memory.md R46, 70_reset_and_hazards.md
R128, 40_execution_engine.md R83). The reset port stands in Ops.lean beside fault entry. -/

namespace Sys2Proof.Machine

/-- The start of a run: a zeroed memory, the image written from address 0, then reset (70_reset_and_hazards.md R128). An
image longer than memory is the loader's error and has no core state (20_memory.md R46). -/
def loadImage (image : List Byte) : Host.Outcome State Fault Refusal :=
  if Config.memSize < image.length then .refused (.imageTooLong image.length)
  else .next ({ State.reset with mem := Memory.load [] 0 image } : State).applyReset

/-- What `run` returns (40_execution_engine.md R83). -/
inductive RunResult where
  | halted
  | faulted (f : FaultRecord)
  | outOfBudget
  deriving DecidableEq, Repr

/-- The result a run gives in a state where it stops: a state that is still Running ran out of budget
(40_execution_engine.md R83). -/
def runResult (s : State) : RunResult :=
  match s.status with
  | .running => .outOfBudget
  | .halted => .halted
  | .faulted f => .faulted f

/-- `run(MAX_STEPS)`: steps while the status is Running and the budget lasts; gives the result and the state left
(40_execution_engine.md R83). -/
def run : Nat → State → Host.Outcome (RunResult × State) Fault Refusal
  | 0, s => .next (runResult s, s)
  | budget + 1, s =>
    match s.status with
    | .running =>
      match step s with
      | .next t => run budget t
      | .fault f => .fault f
      | .refused r => .refused r
    | .halted => .next (runResult s, s)
    | .faulted _ => .next (runResult s, s)

end Sys2Proof.Machine
end

