-- ==== Sys2Proof/WellFormed.lean ====
section
/-! DEFINITION. Which instructions are well formed: every register field names one of the eight registers
(10_state.md R21, 30_encoding.md R65). An immediate may be any byte (30_encoding.md R66). -/

namespace Sys2Proof

/-- A register field is legal when it is 0 to 7; no bits are masked off (10_state.md R21). -/
def legalRegField (f : Byte) : Bool := decide (f.toNat < Config.numRegs)

/-- Every register field of the instruction is legal (40_execution_engine.md R79). -/
def Instr.wellFormed (i : Instr) : Bool := i.regFields.all legalRegField

end Sys2Proof
end

