-- ==== Sys2Proof/Safety.lean ====
section
/-! DEFINITION. The terms the claims are stated in: frames, the state after a fault, the fault a step reports, the
registers an instruction reads and writes, and the invariant of a run. They are written from the spec's own tables, not from
the meanings, and the machine never uses them. -/

namespace Sys2Proof.Machine

/-- Every register outside the list is unchanged. -/
def RegsSameExcept (written : List (Fin Config.numRegs)) (s t : State) : Prop :=
  ∀ j, j ∉ written → t.reg j = s.reg j

/-- Every byte of memory outside the list of addresses reads as before. -/
def MemSameExcept (written : List Nat) (s t : State) : Prop :=
  ∀ a, a ∉ written → t.byteAt a = s.byteAt a

/-- Nothing but the listed registers, the listed memory cells and pc may differ. -/
def OnlyWrites (regs : List (Fin Config.numRegs)) (cells : List Nat) (s t : State) : Prop :=
  RegsSameExcept regs s t ∧ MemSameExcept cells s t ∧ t.fl = s.fl ∧ t.status = s.status ∧ t.out = s.out

/-- The state after a fault: the status is Faulted and everything else is as it was (60_exceptions.md R114). -/
def afterFault (cause : FaultCause) (opcode : Option Byte) (s : State) : State :=
  { s with status := .faulted { cause := cause, pc := s.pc, opcode := opcode } }

/-- The instruction is PUSH, POP, CALL or RET (00_scope.md R15). -/
def isStackInstruction : Instr → Bool
  | .push _ | .pop _ | .call _ | .ret => true
  | .hlt | .prn _ | .jmp _ | .jeq _ | .jne _ | .ldi _ _ | .add _ _ | .mul _ _ | .cmp _ _ | .and _ _ | .or _ _
  | .xor _ _ => false

/-- The outcome of a number of step requests, one after another. -/
def stepTimes : Nat → State → Host.Outcome State Fault Refusal
  | 0, s => .next s
  | n + 1, s =>
    match step s with
    | .next t => stepTimes n t
    | .fault f => .fault f
    | .refused r => .refused r

/-! ### The fault a step reports (60_exceptions.md R112, R115) -/

/-- The first register field that names no register, in byte order (40_execution_engine.md R79). -/
def firstIllegalField : List Byte → Option FaultCause
  | [] => none
  | f :: fs => if 8 ≤ f.toNat then some (.outOfBoundsAccess .register f.toNat) else firstIllegalField fs

/-- The check a push makes on the SP it finds (60_exceptions.md R112, code 3). -/
def pushFault (s : State) : Option FaultCause :=
  if s.sp.toNat = 0 ∨ 0xF4 < s.sp.toNat - 1 then some (.stackOverflow s.sp) else none

/-- The check a pop makes on the SP it finds (60_exceptions.md R112, code 4). -/
def popFault (s : State) : Option FaultCause :=
  if 0xF4 ≤ s.sp.toNat then some (.stackUnderflow s.sp) else none

/-- The instruction's own checks, in the order its pseudocode makes them (60_exceptions.md R115, point 5). -/
def ownFault (i : Instr) (s : State) : Option FaultCause :=
  match i with
  | .push _ => pushFault s
  | .call _ => (pushFault s).or (if 255 < s.pc + 2 then some (.outOfBoundsAccess .memory (s.pc + 2)) else none)
  | .pop _ | .ret => popFault s
  | .hlt | .prn _ | .jmp _ | .jeq _ | .jne _ | .ldi _ _ | .add _ _ | .mul _ _ | .cmp _ _ | .and _ _ | .or _ _
  | .xor _ _ => none

/-- The fault of executing a decoded instruction: register fields first, then its own checks (60_exceptions.md R115,
points 4 and 5). -/
def executeFault (i : Instr) (s : State) : Option FaultCause :=
  (firstIllegalField i.regFields).or (ownFault i s)

/-- The one fault a step from a Running state reports, if any: the first of the five points of 60_exceptions.md R115, with
the record of R113. -/
def firstFault (s : State) : Option FaultRecord :=
  if 256 ≤ s.pc then some { cause := .outOfBoundsAccess .memory s.pc, pc := s.pc, opcode := none }
  else
    let op := s.byteAt s.pc
    let cause : Option FaultCause :=
      match lookupOpcode op with
      | none => some (.unknownOpcode op)
      | some m =>
        if 2 ≤ m.width ∧ 256 ≤ s.pc + 1 then some (.outOfBoundsAccess .memory (s.pc + 1))
        else if m.width = 3 ∧ 256 ≤ s.pc + 2 then some (.outOfBoundsAccess .memory (s.pc + 2))
        else executeFault (m.instr (s.byteAt (s.pc + 1)) (s.byteAt (s.pc + 2))) s
    cause.map fun c => { cause := c, pc := s.pc, opcode := some op }

/-! ### Which registers an instruction reads and writes (10_state.md R20) -/

/-- The register a legal field names (a field of 8 or more names none). -/
def fieldReg (f : Byte) : List (Fin Config.numRegs) := if h : f.toNat < 8 then [⟨f.toNat, h⟩] else []

/-- The column "reads" of 10_state.md R20; JEQ and JNE read their register only when they jump. -/
def readsRegs (i : Instr) (fl : Byte) : List (Fin Config.numRegs) :=
  match i with
  | .ldi _ _ | .hlt => []
  | .prn r | .jmp r => fieldReg r
  | .push r | .call r => 7 :: fieldReg r
  | .pop _ | .ret => [7]
  | .jeq r => if flagE fl then fieldReg r else []
  | .jne r => if flagE fl then [] else fieldReg r
  | .add ra rb | .mul ra rb | .cmp ra rb | .and ra rb | .or ra rb | .xor ra rb => fieldReg ra ++ fieldReg rb

/-- The column "writes" of 10_state.md R20. -/
def writesRegs (i : Instr) : List (Fin Config.numRegs) :=
  match i with
  | .ldi r _ => fieldReg r
  | .push _ | .call _ | .ret => [7]
  | .pop r => 7 :: fieldReg r
  | .add ra _ | .mul ra _ | .and ra _ | .or ra _ | .xor ra _ => fieldReg ra
  | .prn _ | .jmp _ | .jeq _ | .jne _ | .hlt | .cmp _ _ => []

/-! ### The invariant of a run -/

/-- FL holds no more than one flag, and its undefined bits are 0 (10_state.md R29). -/
def LegalFlags (fl : Byte) : Prop := fl = 0x00 ∨ fl = 0x01 ∨ fl = 0x02 ∨ fl = 0x04

/-- The opcode field a fault record at pc must hold: the byte there, or none where no byte exists (60_exceptions.md
R113). -/
def opcodeAtPc (s : State) : Option Byte := if s.pc < 256 then some (s.byteAt s.pc) else none

/-- A stopped engine stands where it stopped: Halted at a HLT byte (42_control_flow.md R96), Faulted at the instruction its
record names (60_exceptions.md R113, R114), never for an ALU operation (60_exceptions.md R117). -/
def StatusConsistent (s : State) : Prop :=
  match s.status with
  | .running => True
  | .halted => s.pc < 256 ∧ s.byteAt s.pc = 0x01
  | .faulted f => f.pc = s.pc ∧ f.opcode = opcodeAtPc s ∧ ∀ op, f.cause ≠ .invalidALUOperation op

/-- What every run keeps: memory in canonical form with every listed cell below 256, legal flags, pc no more than
`MEM_SIZE` (10_state.md R25), and a status that fits the place it stopped at. -/
structure Inv (s : State) : Prop where
  memory : Memory.wf s.mem = true
  flags : LegalFlags s.fl
  pc : s.pc ≤ 256
  status : StatusConsistent s

end Sys2Proof.Machine
end

