-- ==== Sys2Proof/Certificates/Slice0/Obligations.lean ====
section
/-! DEFINITION. The statements for the provers. Each docstring names the rule of spec/ it formalises. In all of them the
register an operand byte `r` names is given as `i : Fin 8` with `r.toNat = i`; the bytes 8 to 255, which name none, are the
subject of `Obligations.IllegalRegisterFieldRaises`. -/

open Sys2Proof Sys2Proof.Machine

/-! ### Data movement (41_data_movement.md) -/

/-- 41_data_movement.md R87: LDI's encoding, its result and its frame. -/
def Obligations.LdiLoadsImmediate : Prop :=
  (∀ (r imm : Byte) (rest : List Byte),
      decode (0x82 :: r :: imm :: rest) = .ok (.ldi r imm, rest) ∧ encode (.ldi r imm) = [0x82, r, imm]) ∧
  ∀ (s : State) (r imm : Byte) (i : Fin 8), r.toNat = i.val →
    ∃ t, exec (.ldi r imm) s = .next t ∧ t.reg i = imm ∧ t.pc = s.pc + 3 ∧ OnlyWrites [i] [] s t

/-- 41_data_movement.md R88: PRN's encoding, its result and its frame. -/
def Obligations.PrnEmitsRegister : Prop :=
  (∀ (r : Byte) (rest : List Byte),
      decode (0x47 :: r :: rest) = .ok (.prn r, rest) ∧ encode (.prn r) = [0x47, r]) ∧
  ∀ (s : State) (r : Byte) (i : Fin 8), r.toNat = i.val →
    ∃ t, exec (.prn r) s = .next t ∧ t.out = s.out ++ [s.reg i] ∧ t.pc = s.pc + 2 ∧
      RegsSameExcept [] s t ∧ MemSameExcept [] s t ∧ t.fl = s.fl ∧ t.status = s.status

/-- 41_data_movement.md R89 with 20_memory.md R54: PUSH's encoding, its two faults, its result and its frame. The cell written
is the one `PushSlot` gives, `SP - 1`, and PUSH R7 stores the decremented SP. -/
def Obligations.PushStoresBelowStackPointer : Prop :=
  (∀ (r : Byte) (rest : List Byte),
      decode (0x45 :: r :: rest) = .ok (.push r, rest) ∧ encode (.push r) = [0x45, r]) ∧
  ∀ (s : State) (r : Byte) (i : Fin 8), r.toNat = i.val →
    (s.sp.toNat = 0 ∨ 0xF4 < s.sp.toNat - 1 →
      exec (.push r) s = .next (afterFault (.stackOverflow s.sp) (some 0x45) s)) ∧
    (0 < s.sp.toNat → s.sp.toNat - 1 ≤ 0xF4 →
      ∃ a s1 t, pushSlot s = .ok (a, s1) ∧ a = s.sp.toNat - 1 ∧ exec (.push r) s = .next t ∧
        t.reg 7 = s.sp - 1 ∧ t.byteAt a = (if i = 7 then s.sp - 1 else s.reg i) ∧ t.pc = s.pc + 2 ∧
        OnlyWrites [7] [a] s t)

/-- 41_data_movement.md R90 with 20_memory.md R55: POP's encoding, its fault, its result and its frame. No byte of memory
changes, and POP R7 leaves the popped byte plus one, modulo 256. -/
def Obligations.PopLoadsTopOfStack : Prop :=
  (∀ (r : Byte) (rest : List Byte),
      decode (0x46 :: r :: rest) = .ok (.pop r, rest) ∧ encode (.pop r) = [0x46, r]) ∧
  ∀ (s : State) (r : Byte) (i : Fin 8), r.toNat = i.val →
    (0xF4 ≤ s.sp.toNat → exec (.pop r) s = .next (afterFault (.stackUnderflow s.sp) (some 0x46) s)) ∧
    (s.sp.toNat < 0xF4 →
      ∃ t, exec (.pop r) s = .next t ∧
        (i ≠ 7 → t.reg i = s.byteAt s.sp.toNat ∧ (t.reg 7).toNat = s.sp.toNat + 1) ∧
        (i = 7 → (t.reg 7).toNat = ((s.byteAt s.sp.toNat).toNat + 1) % 256) ∧
        t.pc = s.pc + 2 ∧ OnlyWrites [i, 7] [] s t)

/-! ### Control flow (42_control_flow.md) -/

/-- 42_control_flow.md R91: CALL's encoding, its two faults in their order, its result and its frame. The cell written is the
one `PushSlot` gives, and CALL R7 jumps to the decremented SP. -/
def Obligations.CallPushesReturnAddressAndJumps : Prop :=
  (∀ (r : Byte) (rest : List Byte),
      decode (0x50 :: r :: rest) = .ok (.call r, rest) ∧ encode (.call r) = [0x50, r]) ∧
  ∀ (s : State) (r : Byte) (i : Fin 8), r.toNat = i.val →
    (s.sp.toNat = 0 ∨ 0xF4 < s.sp.toNat - 1 →
      exec (.call r) s = .next (afterFault (.stackOverflow s.sp) (some 0x50) s)) ∧
    (0 < s.sp.toNat → s.sp.toNat - 1 ≤ 0xF4 → 255 < s.pc + 2 →
      exec (.call r) s = .next (afterFault (.outOfBoundsAccess .memory (s.pc + 2)) (some 0x50) s)) ∧
    (0 < s.sp.toNat → s.sp.toNat - 1 ≤ 0xF4 → s.pc + 2 ≤ 255 →
      ∃ a s1 t, pushSlot s = .ok (a, s1) ∧ a = s.sp.toNat - 1 ∧ exec (.call r) s = .next t ∧
        t.reg 7 = s.sp - 1 ∧ (t.byteAt a).toNat = s.pc + 2 ∧
        t.pc = (if i = 7 then s.sp.toNat - 1 else (s.reg i).toNat) ∧ OnlyWrites [7] [a] s t)

/-- 42_control_flow.md R92: RET's encoding, its fault, its result and its frame. -/
def Obligations.RetPopsProgramCounter : Prop :=
  (∀ rest : List Byte, decode (0x11 :: rest) = .ok (.ret, rest) ∧ encode .ret = [0x11]) ∧
  ∀ s : State,
    (0xF4 ≤ s.sp.toNat → exec .ret s = .next (afterFault (.stackUnderflow s.sp) (some 0x11) s)) ∧
    (s.sp.toNat < 0xF4 →
      ∃ t, exec .ret s = .next t ∧ t.pc = (s.byteAt s.sp.toNat).toNat ∧ (t.reg 7).toNat = s.sp.toNat + 1 ∧
        OnlyWrites [7] [] s t)

/-- 42_control_flow.md R93: JMP's encoding, its result and its frame. -/
def Obligations.JmpJumpsAlways : Prop :=
  (∀ (r : Byte) (rest : List Byte),
      decode (0x54 :: r :: rest) = .ok (.jmp r, rest) ∧ encode (.jmp r) = [0x54, r]) ∧
  ∀ (s : State) (r : Byte) (i : Fin 8), r.toNat = i.val →
    ∃ t, exec (.jmp r) s = .next t ∧ t.pc = (s.reg i).toNat ∧ OnlyWrites [] [] s t

/-- 42_control_flow.md R94: JEQ's encoding, its result and its frame; FL.E is bit 0. -/
def Obligations.JeqJumpsWhenEqual : Prop :=
  (∀ (r : Byte) (rest : List Byte),
      decode (0x55 :: r :: rest) = .ok (.jeq r, rest) ∧ encode (.jeq r) = [0x55, r]) ∧
  (∀ (s : State) (r : Byte) (i : Fin 8), r.toNat = i.val →
    ∃ t, exec (.jeq r) s = .next t ∧ (s.fl.getLsbD 0 = true → t.pc = (s.reg i).toNat) ∧
      (s.fl.getLsbD 0 = false → t.pc = s.pc + 2) ∧ OnlyWrites [] [] s t) ∧
  ∀ (s : State) (r : Byte), 8 ≤ r.toNat →
    exec (.jeq r) s = .next (afterFault (.outOfBoundsAccess .register r.toNat) (some 0x55) s)

/-- 42_control_flow.md R95: JNE's encoding, its result and its frame; where JEQ jumps JNE does not, and the other way. -/
def Obligations.JneJumpsWhenNotEqual : Prop :=
  (∀ (r : Byte) (rest : List Byte),
      decode (0x56 :: r :: rest) = .ok (.jne r, rest) ∧ encode (.jne r) = [0x56, r]) ∧
  (∀ (s : State) (r : Byte) (i : Fin 8), r.toNat = i.val →
    ∃ t u, exec (.jne r) s = .next t ∧ (s.fl.getLsbD 0 = false → t.pc = (s.reg i).toNat) ∧
      (s.fl.getLsbD 0 = true → t.pc = s.pc + 2) ∧ OnlyWrites [] [] s t ∧
      exec (.jeq r) s = .next u ∧
      (t.pc = (s.reg i).toNat ∧ u.pc = s.pc + 2 ∨ t.pc = s.pc + 2 ∧ u.pc = (s.reg i).toNat)) ∧
  ∀ (s : State) (r : Byte), 8 ≤ r.toNat →
    exec (.jne r) s = .next (afterFault (.outOfBoundsAccess .register r.toNat) (some 0x56) s)

/-- 42_control_flow.md R96: HLT's encoding, its result (only the status changes), and that nothing executes after it until
reset. -/
def Obligations.HltHaltsInPlace : Prop :=
  (∀ rest : List Byte, decode (0x01 :: rest) = .ok (.hlt, rest) ∧ encode .hlt = [0x01]) ∧
  ∀ s : State, exec .hlt s = .next { s with status := .halted } ∧
    (∀ n, stepTimes n { s with status := .halted } = .next { s with status := .halted }) ∧
    ({ s with status := .halted } : State).applyReset.status = .running

/-! ### The ALU (43_alu.md, 44_bitwise.md) -/

/-- 43_alu.md R102: ADD's encoding, its result and its frame. -/
def Obligations.AddWrapsModulo256 : Prop :=
  (∀ (ra rb : Byte) (rest : List Byte),
      decode (0xA0 :: ra :: rb :: rest) = .ok (.add ra rb, rest) ∧ encode (.add ra rb) = [0xA0, ra, rb]) ∧
  ∀ (s : State) (ra rb : Byte) (i j : Fin 8), ra.toNat = i.val → rb.toNat = j.val →
    ∃ t, exec (.add ra rb) s = .next t ∧ (t.reg i).toNat = ((s.reg i).toNat + (s.reg j).toNat) % 256 ∧
      t.pc = s.pc + 3 ∧ OnlyWrites [i] [] s t

/-- 43_alu.md R103: MUL's encoding, its result and its frame. -/
def Obligations.MulKeepsLowByteOfProduct : Prop :=
  (∀ (ra rb : Byte) (rest : List Byte),
      decode (0xA2 :: ra :: rb :: rest) = .ok (.mul ra rb, rest) ∧ encode (.mul ra rb) = [0xA2, ra, rb]) ∧
  ∀ (s : State) (ra rb : Byte) (i j : Fin 8), ra.toNat = i.val → rb.toNat = j.val →
    ∃ t, exec (.mul ra rb) s = .next t ∧ (t.reg i).toNat = ((s.reg i).toNat * (s.reg j).toNat) % 256 ∧
      t.pc = s.pc + 3 ∧ OnlyWrites [i] [] s t

/-- 43_alu.md R104: CMP's encoding, the whole of FL it writes, and its frame: no register and no byte of memory changes. -/
def Obligations.CmpWritesWholeFlags : Prop :=
  (∀ (ra rb : Byte) (rest : List Byte),
      decode (0xA7 :: ra :: rb :: rest) = .ok (.cmp ra rb, rest) ∧ encode (.cmp ra rb) = [0xA7, ra, rb]) ∧
  ∀ (s : State) (ra rb : Byte) (i j : Fin 8), ra.toNat = i.val → rb.toNat = j.val →
    ∃ t, exec (.cmp ra rb) s = .next t ∧
      ((s.reg i).toNat = (s.reg j).toNat → t.fl = 0x01) ∧
      ((s.reg j).toNat < (s.reg i).toNat → t.fl = 0x02) ∧
      ((s.reg i).toNat < (s.reg j).toNat → t.fl = 0x04) ∧
      t.pc = s.pc + 3 ∧ RegsSameExcept [] s t ∧ MemSameExcept [] s t ∧ t.status = s.status ∧ t.out = s.out

/-- 44_bitwise.md R107: AND's encoding, each bit of its result, and its frame (no flag). -/
def Obligations.AndIsBitwise : Prop :=
  (∀ (ra rb : Byte) (rest : List Byte),
      decode (0xA8 :: ra :: rb :: rest) = .ok (.and ra rb, rest) ∧ encode (.and ra rb) = [0xA8, ra, rb]) ∧
  ∀ (s : State) (ra rb : Byte) (i j : Fin 8), ra.toNat = i.val → rb.toNat = j.val →
    ∃ t, exec (.and ra rb) s = .next t ∧
      (∀ k, (t.reg i).getLsbD k = true ↔ (s.reg i).getLsbD k = true ∧ (s.reg j).getLsbD k = true) ∧
      t.pc = s.pc + 3 ∧ OnlyWrites [i] [] s t

/-- 44_bitwise.md R108: OR's encoding, each bit of its result, and its frame (no flag). -/
def Obligations.OrIsBitwise : Prop :=
  (∀ (ra rb : Byte) (rest : List Byte),
      decode (0xAA :: ra :: rb :: rest) = .ok (.or ra rb, rest) ∧ encode (.or ra rb) = [0xAA, ra, rb]) ∧
  ∀ (s : State) (ra rb : Byte) (i j : Fin 8), ra.toNat = i.val → rb.toNat = j.val →
    ∃ t, exec (.or ra rb) s = .next t ∧
      (∀ k, (t.reg i).getLsbD k = true ↔ (s.reg i).getLsbD k = true ∨ (s.reg j).getLsbD k = true) ∧
      t.pc = s.pc + 3 ∧ OnlyWrites [i] [] s t

/-- 44_bitwise.md R109: XOR's encoding, each bit of its result, and its frame (no flag, even when the result is 0). -/
def Obligations.XorIsBitwise : Prop :=
  (∀ (ra rb : Byte) (rest : List Byte),
      decode (0xAB :: ra :: rb :: rest) = .ok (.xor ra rb, rest) ∧ encode (.xor ra rb) = [0xAB, ra, rb]) ∧
  ∀ (s : State) (ra rb : Byte) (i j : Fin 8), ra.toNat = i.val → rb.toNat = j.val →
    ∃ t, exec (.xor ra rb) s = .next t ∧
      (∀ k, (t.reg i).getLsbD k = true ↔ ¬((s.reg i).getLsbD k = true ↔ (s.reg j).getLsbD k = true)) ∧
      t.pc = s.pc + 3 ∧ OnlyWrites [i] [] s t

/-- 43_alu.md R101, the ALU as a pure function of an operation and two bytes. That an operation is named by its opcode byte is
the model's choice (log entry 7). -/
def Obligations.AluContract : Prop :=
  ∀ a b : Byte,
    alu 0xA0 a b = .ok { result := some (a + b), flags := none } ∧
    alu 0xA2 a b = .ok { result := some (a * b), flags := none } ∧
    alu 0xA7 a b = .ok { result := none, flags := some (if a = b then 0x01 else if b < a then 0x02 else 0x04) } ∧
    alu 0xA8 a b = .ok { result := some (a &&& b), flags := none } ∧
    alu 0xAA a b = .ok { result := some (a ||| b), flags := none } ∧
    alu 0xAB a b = .ok { result := some (a ^^^ b), flags := none } ∧
    ∀ op : Byte, op ∉ ([0xA0, 0xA2, 0xA7, 0xA8, 0xAA, 0xAB] : List Byte) →
      alu op a b = .error (.invalidALUOperation op)

/-- 43_alu.md R104's corner, the property S4 of 95_test_vectors.md: swapping CMP's operands swaps G and L and leaves E. -/
def Obligations.CmpSwappedMirrorsFlags : Prop :=
  ∀ (s : State) (ra rb : Byte) (i j : Fin 8), ra.toNat = i.val → rb.toNat = j.val →
    ∃ t u, exec (.cmp ra rb) s = .next t ∧ exec (.cmp rb ra) s = .next u ∧
      flagE u.fl = flagE t.fl ∧ flagG u.fl = flagL t.fl ∧ flagL u.fl = flagG t.fl

/-- 70_reset_and_hazards.md R132's first point: the branch after a compare sees its flags. -/
def Obligations.CompareThenBranchOnEquality : Prop :=
  ∀ (s : State) (ra rb r : Byte) (i j k : Fin 8), ra.toNat = i.val → rb.toNat = j.val → r.toNat = k.val →
    ∃ t u v, exec (.cmp ra rb) s = .next t ∧ exec (.jeq r) t = .next u ∧ exec (.jne r) t = .next v ∧
      (s.reg i = s.reg j → u.pc = (s.reg k).toNat ∧ v.pc = s.pc + 5) ∧
      (s.reg i ≠ s.reg j → u.pc = s.pc + 5 ∧ v.pc = (s.reg k).toNat)

/-! ### The stack and memory (20_memory.md) -/

/-- 20_memory.md R43: the two memory primitives with their bounds check, and read after write. -/
def Obligations.MemoryInterfaceChecksBounds : Prop :=
  ∀ (s : State) (a : Nat) (v : Byte),
    (256 ≤ a → memRead a s = .error (.outOfBoundsAccess .memory a) ∧
      memWrite a v s = .error (.outOfBoundsAccess .memory a)) ∧
    (a < 256 → memRead a s = .ok (s.byteAt a) ∧
      ∃ t, memWrite a v s = .ok t ∧ memRead a t = .ok v ∧ (∀ b, b ≠ a → memRead b t = memRead b s) ∧
        { t with mem := s.mem } = s)

/-- 20_memory.md R45: which accesses touch memory. Only PUSH and CALL change a byte, the one below SP; only POP and RET read
one while they execute, the one at SP: for any other memory that agrees there, everything but memory comes out the same. -/
def Obligations.OnlyStackInstructionsTouchMemory : Prop :=
  (∀ (i : Instr) (s t : State) (a : Nat), exec i s = .next t → t.byteAt a ≠ s.byteAt a →
    (∃ r, i = .push r ∨ i = .call r) ∧ a = s.sp.toNat - 1) ∧
  ∀ (i : Instr) (s t : State) (m : Memory), exec i s = .next t →
    ((i = .ret ∨ ∃ r, i = .pop r) → m.get s.sp.toNat = s.byteAt s.sp.toNat) →
    ∃ u, exec i { s with mem := m } = .next u ∧ { u with mem := t.mem } = t

/-- 20_memory.md R56: the stack checks are made only by the four stack instructions, against the SP they find. -/
def Obligations.OnlyStackInstructionsCheckTheStack : Prop :=
  ∀ (i : Instr) (s t : State) (f : FaultRecord) (v : Byte), s.status = .running → exec i s = .next t →
    t.status = .faulted f → (f.cause = .stackOverflow v ∨ f.cause = .stackUnderflow v) →
    isStackInstruction i = true ∧ v = s.sp

/-- 20_memory.md R57, which the spec derives: a stack access is always in bounds. -/
def Obligations.StackAccessesAreInBounds : Prop :=
  (∀ (s s1 : State) (a : Nat), pushSlot s = .ok (a, s1) → a ≤ 0xF4 ∧ ∀ v, ∃ t, memWrite a v s1 = .ok t) ∧
  ∀ (s : State) (a : Nat), popSlot s = .ok a → a < 0xF4 ∧ ∃ v, memRead a s = .ok v

/-- The property S5 of 95_test_vectors.md, for every register, R7 among them: PUSH then POP of one register changes no
register and nothing in memory but the cell below SP. -/
def Obligations.PushThenPopRestoresRegisters : Prop :=
  ∀ (s : State) (r : Byte) (i : Fin 8), r.toNat = i.val → 0 < s.sp.toNat → s.sp.toNat ≤ 0xF4 →
    ∃ t u, exec (.push r) s = .next t ∧ exec (.pop r) t = .next u ∧ u.pc = s.pc + 4 ∧
      OnlyWrites [] [s.sp.toNat - 1] s u

/-- The property S6 of 95_test_vectors.md: CALL then RET comes back to the instruction after the CALL, with every register
as it was. -/
def Obligations.CallThenRetReturns : Prop :=
  ∀ (s : State) (r : Byte) (i : Fin 8), r.toNat = i.val → 0 < s.sp.toNat → s.sp.toNat ≤ 0xF4 → s.pc + 2 ≤ 255 →
    ∃ t u, exec (.call r) s = .next t ∧ exec .ret t = .next u ∧ u.pc = s.pc + 2 ∧
      OnlyWrites [] [s.sp.toNat - 1] s u

/-- 20_memory.md R60, which the spec derives: a PUSH into the code that follows it is what the next step executes. The byte
pushed is the opcode of HLT, and the engine halts there (the pattern of program P9). -/
def Obligations.PushedByteIsFetchedNext : Prop :=
  ∀ (s : State) (r : Byte) (i : Fin 8), r.toNat = i.val → s.status = .running → i ≠ 7 → s.reg i = 0x01 →
    0 < s.sp.toNat → s.sp.toNat - 1 ≤ 0xF4 → s.pc + 2 = s.sp.toNat - 1 →
    ∃ t, exec (.push r) s = .next t ∧ step t = .next { t with status := .halted }

/-! ### Who writes and who reads each piece of state -/

/-- 10_state.md R30: only CMP writes FL; only JEQ and JNE read it, and of it only bit 0. A read is shown by replacing FL:
the rest of the outcome does not change. -/
def Obligations.OnlyCmpWritesFlags : Prop :=
  (∀ (i : Instr) (s t : State), exec i s = .next t → (∀ ra rb, i ≠ .cmp ra rb) → t.fl = s.fl) ∧
  ∀ (i : Instr) (s t : State) (v : Byte), exec i s = .next t →
    ((∃ r, i = .jeq r ∨ i = .jne r) → v.getLsbD 0 = s.fl.getLsbD 0) →
    ∃ u, exec i (s.setFl v) = .next u ∧ u.setFl t.fl = t

/-- 10_state.md R36: only PRN appends to the output, one byte, and no instruction reads it. -/
def Obligations.OnlyPrnAppendsOutput : Prop :=
  ∀ (i : Instr) (s t : State), exec i s = .next t →
    ∃ emitted : List Byte, t.out = s.out ++ emitted ∧ emitted.length ≤ 1 ∧ (emitted ≠ [] → ∃ r, i = .prn r) ∧
      ∀ out, exec i { s with out := out } = .next { t with out := out ++ emitted }

/-- 10_state.md R20's table: the registers outside the "writes" column keep their values, and the outcome depends on no
register outside the "reads" column. -/
def Obligations.InstructionsUseOnlyTheirRegisters : Prop :=
  (∀ (i : Instr) (s t : State), exec i s = .next t → RegsSameExcept (writesRegs i) s t) ∧
  ∀ (i : Instr) (s t : State) (regs : Vector Byte 8), exec i s = .next t →
    (∀ j ∈ readsRegs i s.fl, ({ s with regs := regs } : State).reg j = s.reg j) →
    ∃ u, exec i { s with regs := regs } = .next u ∧ { u with regs := t.regs } = t ∧
      (executeFault i s = none → ∀ j ∈ writesRegs i, u.reg j = t.reg j)

/-! ### Encoding (30_encoding.md) -/

/-- One word of every format written out from 30_encoding.md R64 and R68. The opcode values are the spec's decision D1. -/
def Obligations.SampleWordsDecode : Prop :=
  decodeTableWord 8 0b00000001 = some .hlt ∧
  decodeTableWord 8 0b00010001 = some .ret ∧
  decodeTableWord 16 0b00000011_01000101 = some (.push 3) ∧
  decodeTableWord 16 0b00000001_01010000 = some (.call 1) ∧
  decodeTableWord 24 0b11001000_00000010_10000010 = some (.ldi 2 200) ∧
  decodeTableWord 24 0b00000110_00000101_10100010 = some (.mul 5 6) ∧
  decodeTableWord 24 0b00000000_00000111_10101011 = some (.xor 7 0) ∧
  decodeTableWord 8 0b00000000 = none

/-- 30_encoding.md R62 to R70: the decoder reads an instruction from a byte list exactly when the list begins with that
instruction's encoding, and leaves the bytes after it. So every operand byte at every value survives the round trip, no two
instructions share an encoding, and nothing else is accepted. -/
def Obligations.DecodeAndEncodeAgree : Prop :=
  ∀ (bytes rest : List Byte) (i : Instr), decode bytes = .ok (i, rest) ↔ bytes = encode i ++ rest

/-- 30_encoding.md R63: an instruction is one to three bytes, and its opcode byte alone fixes which. -/
def Obligations.OpcodeAloneFixesLength : Prop :=
  (∀ i : Instr, (encode i).length = i.width ∧ 1 ≤ i.width ∧ i.width ≤ 3) ∧
  ∀ (op : Byte) (bs bs' rest rest' : List Byte) (i i' : Instr), decode (op :: bs) = .ok (i, rest) →
    decode (op :: bs') = .ok (i', rest') → i.mnemonic = i'.mnemonic ∧ i.width = i'.width ∧
      (op :: bs).length = i.width + rest.length ∧ (op :: bs').length = i.width + rest'.length

/-- 10_state.md R21 and 30_encoding.md R65: a register field is the whole byte; 0 to 7 select a register, and a byte of 8 to
255 in any register field of any instruction raises before anything changes, the first such field in byte order. -/
def Obligations.IllegalRegisterFieldRaises : Prop :=
  (∀ (f : Byte) (i : Fin 8), regOperand f = .ok i ↔ f.toNat = i.val) ∧
  (∀ (i : Instr) (s : State) (pre post : List Byte) (f : Byte), i.regFields = pre ++ f :: post →
    (∀ g ∈ pre, g.toNat < 8) → 8 ≤ f.toNat →
    exec i s = .next (afterFault (.outOfBoundsAccess .register f.toNat) (some i.mnemonic.opcode) s)) ∧
  ∀ i : Instr, i.wellFormed = true ↔ ∀ f ∈ i.regFields, f.toNat < 8

/-! ### The engine (40_execution_engine.md) -/

/-- 40_execution_engine.md R77: from a Running state whose bytes from pc on decode to an instruction, a step is that
instruction's execution. -/
def Obligations.StepRunsDecodedInstruction : Prop :=
  ∀ (s : State) (i : Instr) (rest : List Byte), s.status = .running →
    decode ((List.range' s.pc (256 - s.pc)).map s.byteAt) = .ok (i, rest) → step s = exec i s

/-- An instruction placed by `withFetchWord` (log entry 3) at a pc where three bytes fit is the one the next step runs. -/
def Obligations.PlacedTableWordRunsNext : Prop :=
  ∀ (s : State) (nbits w : Nat) (i : Instr), s.pc + 3 ≤ 256 → decodeTableWord nbits w = some i →
    step (s.withFetchWord nbits w) = exec i (s.withFetchWord nbits w) ∧
      { s.withFetchWord nbits w with mem := s.mem, status := s.status } = s

/-- 40_execution_engine.md R78: exactly the operand bytes of the instruction are read, in increasing order, and the first
that lies outside memory is the one reported. -/
def Obligations.OperandFetchReadsExactBytes : Prop :=
  ∀ (s : State) (m : Mnemonic), s.status = .running → s.pc < 256 → s.byteAt s.pc = m.opcode →
    (s.pc + m.width ≤ 256 → fetch s = .ok (m.instr (s.byteAt (s.pc + 1)) (s.byteAt (s.pc + 2))) ∧
      ∀ mem : Memory, (∀ k, k < m.width → mem.get (s.pc + k) = s.byteAt (s.pc + k)) →
        fetch { s with mem := mem } = fetch s) ∧
    (2 ≤ m.width → 256 ≤ s.pc + 1 →
      step s = .next (afterFault (.outOfBoundsAccess .memory (s.pc + 1)) (some m.opcode) s)) ∧
    (m.width = 3 → s.pc + 1 < 256 → 256 ≤ s.pc + 2 →
      step s = .next (afterFault (.outOfBoundsAccess .memory (s.pc + 2)) (some m.opcode) s))

/-- 30_encoding.md R69: a byte that is no opcode raises UnknownOpcode and executes nothing; there are 240 of them, and 0x00
is one. -/
def Obligations.UnknownOpcodeRaises : Prop :=
  (∀ s : State, s.status = .running → s.pc < 256 → (∀ m : Mnemonic, m.opcode ≠ s.byteAt s.pc) →
    step s = .next (afterFault (.unknownOpcode (s.byteAt s.pc)) (some (s.byteAt s.pc)) s)) ∧
  ((List.range 256).filter fun n => lookupOpcode (BitVec.ofNat 8 n) = none).length = 240 ∧
  ∀ m : Mnemonic, m.opcode ≠ 0x00

/-- 10_state.md R25's last point: a fetch at pc >= 256 raises, with no opcode in the record. -/
def Obligations.FetchPastMemoryRaises : Prop :=
  ∀ s : State, s.status = .running → 256 ≤ s.pc →
    step s = .next (afterFault (.outOfBoundsAccess .memory s.pc) none s)

/-- 40_execution_engine.md R76: Halted and Faulted are terminal, and a step request there changes nothing. -/
def Obligations.TerminalStatusIsSticky : Prop :=
  ∀ s : State, s.status ≠ .running → step s = .next s ∧
    ∀ n, stepTimes n s = .next s ∧ run n s = .next (runResult s, s)

/-- The model never stops outside the spec's own outcomes: every step request from every state, and every instruction from
every state, answers a next state. That it is never the host's fault or refusal outcome is the model's reading, marked DEDUCED:
fault entry is a next state with status Faulted (log entry 1, from 60_exceptions.md R114: "`status <- Faulted(f)`"), and a step
request to a stopped engine answers the same state (log entry 2, from 40_execution_engine.md R76: "a `step` request changes no
state"). -/
def Obligations.EveryStepAnswersNext : Prop :=
  (∀ s : State, ∃ t, step s = .next t) ∧ ∀ (i : Instr) (s : State), ∃ t, exec i s = .next t

/-- 40_execution_engine.md R83: the run loop. It takes some number of steps within the budget, every one from a Running
state, and stops early only in a state that is not Running; the result is read off the last state; and a later run continues
from there. That `run` gives its result paired with the state it leaves is the model's choice of type (log entry 13): R83 gives
the result alone. -/
def Obligations.RunStepsWithinBudget : Prop :=
  (∀ (budget : Nat) (s : State), ∃ (n : Nat) (t : State), n ≤ budget ∧
    stepTimes n s = .next t ∧ run budget s = .next (runResult t, t) ∧
    (∀ k, k < n → ∃ u : State, stepTimes k s = .next u ∧ u.status = .running) ∧
    (n < budget → t.status ≠ .running)) ∧
  (∀ t : State, (runResult t = .outOfBudget ↔ t.status = .running) ∧ (runResult t = .halted ↔ t.status = .halted) ∧
    ∀ f, runResult t = .faulted f ↔ t.status = .faulted f) ∧
  ∀ (m n : Nat) (s t : State) (res : RunResult), run m s = .next (res, t) → run (m + n) s = run n t

/-! ### Faults (60_exceptions.md) -/

/-- 00_scope.md R11: an instruction either completes, or raises and changes only the status. -/
def Obligations.InstructionCompletesOrRaises : Prop :=
  ∀ (i : Instr) (s : State),
    (∀ c, executeFault i s = some c → exec i s = .next (afterFault c (some i.mnemonic.opcode) s)) ∧
    (executeFault i s = none →
      ∃ t, exec i s = .next t ∧ (i ≠ .hlt → t.status = s.status) ∧ (i = .hlt → t.status = .halted))

/-- 60_exceptions.md R115: a step reports the first fault in the spec's order, and no other; without one it completes. -/
def Obligations.StepReportsFirstFault : Prop :=
  ∀ s : State, s.status = .running →
    (∀ f, firstFault s = some f → step s = .next { s with status := .faulted f }) ∧
    (firstFault s = none → ∃ t, step s = .next t ∧ (t.status = .running ∨ t.status = .halted))

/-- 60_exceptions.md R114: a step that raises changes the status and nothing else, and no instruction follows. -/
def Obligations.FaultEntryChangesOnlyStatus : Prop :=
  ∀ (s t : State) (f : FaultRecord), s.status = .running → step s = .next t → t.status = .faulted f →
    t = { s with status := .faulted f } ∧ ∀ n, stepTimes n t = .next t

/-- 60_exceptions.md R113: the fields of a fault record, and that `run` returns the record the status carries. -/
def Obligations.FaultRecordFields : Prop :=
  (∀ (pc : Nat) (op : Option Byte) (sp : Space) (n : Nat) (b : Byte),
    (let f : FaultRecord := ⟨.outOfBoundsAccess sp n, pc, op⟩
     f.code = 1 ∧ f.name = "OutOfBoundsAccess" ∧ f.space = some sp ∧ f.value = n) ∧
    (let f : FaultRecord := ⟨.unknownOpcode b, pc, op⟩
     f.code = 2 ∧ f.name = "UnknownOpcode" ∧ f.space = none ∧ f.value = b.toNat) ∧
    (let f : FaultRecord := ⟨.stackOverflow b, pc, op⟩
     f.code = 3 ∧ f.name = "StackOverflow" ∧ f.space = none ∧ f.value = b.toNat) ∧
    (let f : FaultRecord := ⟨.stackUnderflow b, pc, op⟩
     f.code = 4 ∧ f.name = "StackUnderflow" ∧ f.space = none ∧ f.value = b.toNat) ∧
    (let f : FaultRecord := ⟨.invalidALUOperation b, pc, op⟩
     f.code = 5 ∧ f.name = "InvalidALUOperation" ∧ f.space = none ∧ f.value = b.toNat)) ∧
  ∀ (s t : State) (f : FaultRecord), s.status = .running → step s = .next t → t.status = .faulted f →
    f.pc = s.pc ∧ f.opcode = opcodeAtPc s ∧
      run 1 s = .next (.faulted f, t)

/-- 60_exceptions.md R117: no program can raise InvalidALUOperation; were the ALU given another operation, the fault would
be taken like every other. -/
def Obligations.NoProgramRaisesInvalidAluOperation : Prop :=
  (∀ s : State, s.status = .running → ∃ t, step s = .next t ∧
    ∀ f op, t.status = .faulted f → f.cause ≠ .invalidALUOperation op) ∧
  ∀ (s : State) (m : Mnemonic) (ra rb : Byte) (i j : Fin 8) (c : FaultCause), ra.toNat = i.val → rb.toNat = j.val →
    alu m.opcode (s.reg i) (s.reg j) = .error c →
    executeTwoRegister m ra rb s = .next (afterFault c (some m.opcode) s) ∧
      step (afterFault c (some m.opcode) s) = .next (afterFault c (some m.opcode) s)

/-- 10_state.md R34 and 42_control_flow.md R96: the engine becomes Halted only by executing a HLT byte, in place. -/
def Obligations.OnlyHltHalts : Prop :=
  ∀ s t : State, s.status = .running → step s = .next t →
    (t.status = .halted ↔ s.pc < 256 ∧ s.byteAt s.pc = 0x01) ∧
    (t.status = .halted → t = { s with status := .halted })

/-! ### Reset, loading and the invariant -/

/-- 10_state.md R39: the reset value of every piece of state. R0 to R6 and FL are the spec's decision D5 (log entry 4). -/
def Obligations.ResetValues : Prop :=
  (∀ i : Fin 8, i ≠ 7 → State.reset.reg i = 0x00) ∧ State.reset.reg 7 = 0xF4 ∧ State.reset.pc = 0 ∧
  State.reset.fl = 0x00 ∧ State.reset.status = .running ∧ State.reset.out = [] ∧
  (∀ a, State.reset.byteAt a = 0x00) ∧ ∀ s : State, s.applyReset.mem = s.mem

/-- 70_reset_and_hazards.md R127: reset, from any state, and that it is the only way out of Halted and Faulted. -/
def Obligations.ResetPortRestoresAllButMemory : Prop :=
  ∀ s : State,
    (∀ i : Fin 8, i ≠ 7 → s.applyReset.reg i = 0x00) ∧ s.applyReset.reg 7 = 0xF4 ∧ s.applyReset.pc = 0 ∧
    s.applyReset.fl = 0x00 ∧ s.applyReset.status = .running ∧ s.applyReset.out = [] ∧
    MemSameExcept [] s s.applyReset ∧ (s.status ≠ .running → step s = .next s)

/-- 20_memory.md R46: the memory a run starts from, and the rest of the state at its reset values; an image longer than
memory has no start state. -/
def Obligations.LoadedImageStartsRun : Prop :=
  ∀ image : List Byte,
    (image.length ≤ 256 → ∃ s, loadImage image = .next s ∧
      (∀ (a : Nat) (h : a < image.length), s.byteAt a = image[a]) ∧
      (∀ a, image.length ≤ a → s.byteAt a = 0x00) ∧ { s with mem := [] } = State.reset ∧ s.applyReset = s ∧
      Inv s) ∧
    (256 < image.length → loadImage image = .refused (.imageTooLong image.length))

/-- The invariant holds at reset, and resetting keeps it. -/
def Obligations.InvariantHoldsAtReset : Prop :=
  Inv State.reset ∧ ∀ s : State, Inv s → Inv s.applyReset

/-- Every step keeps the invariant: canonical memory, at most one flag (10_state.md R29), pc at most 256 (10_state.md R25),
and a stopped engine that stands at the instruction that stopped it. -/
def Obligations.EveryStepKeepsInvariant : Prop :=
  ∀ s t : State, Inv s → step s = .next t → Inv t
end

