-- ==== Sys2Proof/Laws/Decode.lean ====
section
/-! SUPPORT. The small lemmas of the opcode map and of the decoder's parts. -/

namespace Sys2Proof

/-- The map gives each mnemonic's opcode that mnemonic: sixteen distinct bytes (30_encoding.md R68). -/
@[simp] theorem lookupOpcode_opcode (m : Mnemonic) : lookupOpcode m.opcode = some m := by
  cases m <;> decide

/-- A byte the map knows is the opcode of the mnemonic it gives. -/
theorem opcode_of_lookup {op : Byte} {m : Mnemonic} (h : lookupOpcode op = some m) : m.opcode = op := by
  have := List.find?_some h
  simpa using this

theorem opcode_injective {m n : Mnemonic} (h : m.opcode = n.opcode) : m = n := by
  have := lookupOpcode_opcode m
  rw [h, lookupOpcode_opcode] at this
  exact (Option.some.inj this).symm

/-- A byte is unknown exactly when it is no mnemonic's opcode. -/
theorem lookupOpcode_eq_none {op : Byte} : lookupOpcode op = none ↔ ∀ m : Mnemonic, m.opcode ≠ op := by
  constructor
  · rintro h m rfl
    simp at h
  · intro h
    cases hl : lookupOpcode op with
    | none => rfl
    | some m => exact absurd (opcode_of_lookup hl) (h m)

@[simp] theorem operandCountOf_opcode (m : Mnemonic) : operandCountOf m.opcode = m.format.operandCount := by
  simp [operandCountOf]

theorem width_eq (m : Mnemonic) : m.width = m.format.operandCount + 1 := rfl

theorem width_bounds (m : Mnemonic) : 1 ≤ m.width ∧ m.width ≤ 3 := by
  cases m <;> decide

@[simp] theorem Mnemonic.instr_mnemonic (m : Mnemonic) (b1 b2 : Byte) : (m.instr b1 b2).mnemonic = m := by
  cases m <;> rfl

/-- The operand bytes of the instruction a mnemonic and two bytes make: as many of them as the format has. -/
theorem Mnemonic.instr_operandBytes (m : Mnemonic) (b1 b2 : Byte) :
    (m.instr b1 b2).operandBytes = [b1, b2].take m.format.operandCount := by
  cases m <;> rfl

@[simp] theorem decode_nil : decode [] = .error (.missingByte 0) := rfl

/-- Decoding after a known opcode byte is decoding its operands. -/
theorem decode_known {op : Byte} {m : Mnemonic} (h : lookupOpcode op = some m) (rest : List Byte) :
    decode (op :: rest) = decodeOperands m rest := by
  simp [decode, h]

/-- Decoding after an unknown byte is refused by name. -/
theorem decode_unknown {op : Byte} (h : lookupOpcode op = none) (rest : List Byte) :
    decode (op :: rest) = .error (.unknownOpcode op) := by
  simp [decode, h]

/-- Everything decoding the operands can answer, by the number of operand bytes. -/
theorem decodeOperands_cases (m : Mnemonic) (rest : List Byte) :
    (m.format.operandCount = 0 ∧ decodeOperands m rest = .ok (m.instr 0 0, rest)) ∨
    (∃ b1 tl, m.format.operandCount = 1 ∧ rest = b1 :: tl ∧ decodeOperands m rest = .ok (m.instr b1 0, tl)) ∨
    (∃ b1 b2 tl, m.format.operandCount = 2 ∧ rest = b1 :: b2 :: tl ∧
      decodeOperands m rest = .ok (m.instr b1 b2, tl)) ∨
    (rest.length < m.format.operandCount ∧ decodeOperands m rest = .error (.missingByte (rest.length + 1))) := by
  have h3 : m.format.operandCount = 0 ∨ m.format.operandCount = 1 ∨ m.format.operandCount = 2 := by
    cases m <;> decide
  obtain h | h | h := h3 <;> rcases rest with _ | ⟨b1, _ | ⟨b2, tl⟩⟩ <;> simp [decodeOperands, h]

theorem wellFormed_iff (i : Instr) : i.wellFormed = true ↔ ∀ f ∈ i.regFields, f.toNat < 8 := by
  simp [Instr.wellFormed, legalRegField]

end Sys2Proof
end

