-- ==== Sys2Proof/Laws/State.lean ====
section
/-! SUPPORT. One lemma per field per update, so that no later proof unfolds a record update, and the register file's
read-after-write law. -/

namespace Sys2Proof.Machine

section Fields
variable (s : State) (i : Fin Config.numRegs) (v : Byte) (n a : Nat) (c : FaultCause) (op : Option Byte)

@[simp] theorem setReg_pc : (s.setReg i v).pc = s.pc := rfl
@[simp] theorem setReg_fl : (s.setReg i v).fl = s.fl := rfl
@[simp] theorem setReg_mem : (s.setReg i v).mem = s.mem := rfl
@[simp] theorem setReg_status : (s.setReg i v).status = s.status := rfl
@[simp] theorem setReg_out : (s.setReg i v).out = s.out := rfl
@[simp] theorem setReg_byteAt : (s.setReg i v).byteAt a = s.byteAt a := rfl

@[simp] theorem setSp_pc : (s.setSp v).pc = s.pc := rfl
@[simp] theorem setSp_fl : (s.setSp v).fl = s.fl := rfl
@[simp] theorem setSp_mem : (s.setSp v).mem = s.mem := rfl
@[simp] theorem setSp_status : (s.setSp v).status = s.status := rfl
@[simp] theorem setSp_out : (s.setSp v).out = s.out := rfl
@[simp] theorem setSp_byteAt : (s.setSp v).byteAt a = s.byteAt a := rfl

@[simp] theorem setPc_regs : (s.setPc n).regs = s.regs := rfl
@[simp] theorem setPc_pc : (s.setPc n).pc = n := rfl
@[simp] theorem setPc_fl : (s.setPc n).fl = s.fl := rfl
@[simp] theorem setPc_mem : (s.setPc n).mem = s.mem := rfl
@[simp] theorem setPc_status : (s.setPc n).status = s.status := rfl
@[simp] theorem setPc_out : (s.setPc n).out = s.out := rfl
@[simp] theorem setPc_byteAt : (s.setPc n).byteAt a = s.byteAt a := rfl
@[simp] theorem setPc_reg : (s.setPc n).reg i = s.reg i := rfl
@[simp] theorem setPc_sp : (s.setPc n).sp = s.sp := rfl

@[simp] theorem advance_regs : (s.advance n).regs = s.regs := rfl
@[simp] theorem advance_pc : (s.advance n).pc = s.pc + n := rfl
@[simp] theorem advance_fl : (s.advance n).fl = s.fl := rfl
@[simp] theorem advance_mem : (s.advance n).mem = s.mem := rfl
@[simp] theorem advance_status : (s.advance n).status = s.status := rfl
@[simp] theorem advance_out : (s.advance n).out = s.out := rfl
@[simp] theorem advance_byteAt : (s.advance n).byteAt a = s.byteAt a := rfl
@[simp] theorem advance_reg : (s.advance n).reg i = s.reg i := rfl
@[simp] theorem advance_sp : (s.advance n).sp = s.sp := rfl

@[simp] theorem setFl_regs : (s.setFl v).regs = s.regs := rfl
@[simp] theorem setFl_pc : (s.setFl v).pc = s.pc := rfl
@[simp] theorem setFl_fl : (s.setFl v).fl = v := rfl
@[simp] theorem setFl_mem : (s.setFl v).mem = s.mem := rfl
@[simp] theorem setFl_status : (s.setFl v).status = s.status := rfl
@[simp] theorem setFl_out : (s.setFl v).out = s.out := rfl
@[simp] theorem setFl_byteAt : (s.setFl v).byteAt a = s.byteAt a := rfl
@[simp] theorem setFl_reg : (s.setFl v).reg i = s.reg i := rfl
@[simp] theorem setFl_sp : (s.setFl v).sp = s.sp := rfl

@[simp] theorem emit_regs : (s.emit v).regs = s.regs := rfl
@[simp] theorem emit_pc : (s.emit v).pc = s.pc := rfl
@[simp] theorem emit_fl : (s.emit v).fl = s.fl := rfl
@[simp] theorem emit_mem : (s.emit v).mem = s.mem := rfl
@[simp] theorem emit_status : (s.emit v).status = s.status := rfl
@[simp] theorem emit_out : (s.emit v).out = s.out ++ [v] := rfl
@[simp] theorem emit_byteAt : (s.emit v).byteAt a = s.byteAt a := rfl
@[simp] theorem emit_reg : (s.emit v).reg i = s.reg i := rfl
@[simp] theorem emit_sp : (s.emit v).sp = s.sp := rfl

@[simp] theorem halt_regs : s.halt.regs = s.regs := rfl
@[simp] theorem halt_pc : s.halt.pc = s.pc := rfl
@[simp] theorem halt_fl : s.halt.fl = s.fl := rfl
@[simp] theorem halt_mem : s.halt.mem = s.mem := rfl
@[simp] theorem halt_status : s.halt.status = .halted := rfl
@[simp] theorem halt_out : s.halt.out = s.out := rfl
@[simp] theorem halt_byteAt : s.halt.byteAt a = s.byteAt a := rfl
@[simp] theorem halt_reg : s.halt.reg i = s.reg i := rfl
@[simp] theorem halt_sp : s.halt.sp = s.sp := rfl

@[simp] theorem setByte_regs : (s.setByte a v).regs = s.regs := rfl
@[simp] theorem setByte_pc : (s.setByte a v).pc = s.pc := rfl
@[simp] theorem setByte_fl : (s.setByte a v).fl = s.fl := rfl
@[simp] theorem setByte_mem : (s.setByte a v).mem = s.mem.set a v := rfl
@[simp] theorem setByte_status : (s.setByte a v).status = s.status := rfl
@[simp] theorem setByte_out : (s.setByte a v).out = s.out := rfl
@[simp] theorem setByte_reg : (s.setByte a v).reg i = s.reg i := rfl
@[simp] theorem setByte_sp : (s.setByte a v).sp = s.sp := rfl

@[simp] theorem raise_regs : (raise c op s).regs = s.regs := rfl
@[simp] theorem raise_pc : (raise c op s).pc = s.pc := rfl
@[simp] theorem raise_fl : (raise c op s).fl = s.fl := rfl
@[simp] theorem raise_mem : (raise c op s).mem = s.mem := rfl
@[simp] theorem raise_status :
    (raise c op s).status = .faulted { cause := c, pc := s.pc, opcode := op } := rfl
@[simp] theorem raise_out : (raise c op s).out = s.out := rfl
@[simp] theorem raise_byteAt : (raise c op s).byteAt a = s.byteAt a := rfl
@[simp] theorem raise_reg : (raise c op s).reg i = s.reg i := rfl
@[simp] theorem raise_sp : (raise c op s).sp = s.sp := rfl

@[simp] theorem applyReset_regs : s.applyReset.regs = State.reset.regs := rfl
@[simp] theorem applyReset_pc : s.applyReset.pc = 0 := rfl
@[simp] theorem applyReset_fl : s.applyReset.fl = 0 := rfl
@[simp] theorem applyReset_mem : s.applyReset.mem = s.mem := rfl
@[simp] theorem applyReset_status : s.applyReset.status = .running := rfl
@[simp] theorem applyReset_out : s.applyReset.out = [] := rfl

end Fields

/-- Reading a register after writing one: none is hardwired (10_state.md R19). -/
@[simp] theorem setReg_reg (s : State) (i j : Fin Config.numRegs) (v : Byte) :
    (s.setReg i v).reg j = if j = i then v else s.reg j := by
  simp only [State.reg, State.setReg, Fin.getElem_fin, Vector.getElem_set, Fin.ext_iff, eq_comm]

/-- Reading a register after writing SP, which is R7 (10_state.md R22). -/
@[simp] theorem setSp_reg (s : State) (j : Fin Config.numRegs) (v : Byte) :
    (s.setSp v).reg j = if j = 7 then v else s.reg j := setReg_reg s 7 j v

/-- SP after a register write: R7 is SP (10_state.md R22). -/
@[simp] theorem setReg_sp (s : State) (i : Fin Config.numRegs) (v : Byte) :
    (s.setReg i v).sp = if 7 = i then v else s.sp := setReg_reg s i 7 v

@[simp] theorem setSp_sp (s : State) (v : Byte) : (s.setSp v).sp = v := setSp_reg s 7 v

/-- SP is register 7. -/
theorem sp_eq_reg (s : State) : s.sp = s.reg 7 := rfl

/-- Two states with the same fields read register by register are equal in their register file. -/
theorem regs_ext {s t : State} (h : ∀ i, s.reg i = t.reg i) : s.regs = t.regs := by
  ext i hi : 1
  exact h ⟨i, hi⟩

end Sys2Proof.Machine
end

