-- ==== Sys2Proof/Laws/Memory.lean ====
section
/-! SUPPORT. Memory's laws: read after write, and the canonical form every operation keeps. -/

namespace Sys2Proof.Machine

@[simp] theorem Memory.get_nil (a : Nat) : Memory.get [] a = 0 := rfl

theorem Memory.get_insert (m : Memory) (a b : Nat) (v : Byte) :
    (m.insert a v).get b = if b = a then v else m.get b := by
  induction m with
  | nil => simp [Memory.insert, Memory.get, eq_comm]
  | cons c m ih =>
    obtain ⟨k, w⟩ := c
    simp only [Memory.insert]
    split_ifs <;> simp only [Memory.get] <;> grind

theorem Memory.get_erase (m : Memory) (a b : Nat) :
    (m.erase a).get b = if b = a then 0 else m.get b := by
  induction m with
  | nil => simp [Memory.erase, Memory.get, Config.unwrittenCell]
  | cons c m ih =>
    obtain ⟨k, w⟩ := c
    simp only [Memory.erase] at ih
    simp only [Memory.erase, List.filter_cons]
    split_ifs <;> (try simp only [Memory.get]) <;> grind

/-- Read after write (20_memory.md R58). -/
@[simp] theorem Memory.get_set (m : Memory) (a b : Nat) (v : Byte) :
    (m.set a v).get b = if b = a then v else m.get b := by
  unfold Memory.set
  split
  · rw [Memory.get_erase]; simp_all [Config.unwrittenCell]
  · exact Memory.get_insert m a b v

@[simp] theorem setByte_byteAt (s : State) (a b : Nat) (v : Byte) :
    (s.setByte a v).byteAt b = if b = a then v else s.byteAt b := Memory.get_set s.mem a b v

theorem Memory.wfFrom_cons (lo a : Nat) (v : Byte) (m : Memory) :
    Memory.wfFrom lo ((a, v) :: m) = true ↔
      lo ≤ a ∧ a < Config.memSize ∧ v ≠ 0 ∧ Memory.wfFrom (a + 1) m = true := by
  simp [Memory.wfFrom, Config.unwrittenCell, and_assoc]

theorem Memory.wfFrom_mono {lo lo' : Nat} {m : Memory} (h : Memory.wfFrom lo' m = true) (hle : lo ≤ lo') :
    Memory.wfFrom lo m = true := by
  cases m with
  | nil => rfl
  | cons c m =>
    obtain ⟨a, v⟩ := c
    rw [Memory.wfFrom_cons] at h ⊢
    exact ⟨hle.trans h.1, h.2⟩

theorem Memory.insert_wfFrom {lo a : Nat} {v : Byte} {m : Memory} (h : Memory.wfFrom lo m = true)
    (hlo : lo ≤ a) (ha : a < Config.memSize) (hv : v ≠ 0) : Memory.wfFrom lo (m.insert a v) = true := by
  induction m generalizing lo with
  | nil => exact (Memory.wfFrom_cons ..).2 ⟨hlo, ha, hv, rfl⟩
  | cons c m ih =>
    obtain ⟨k, w⟩ := c
    rw [Memory.wfFrom_cons] at h
    obtain ⟨h1, h2, h3, h4⟩ := h
    simp only [Memory.insert]
    split_ifs with c1 c2
    · exact (Memory.wfFrom_cons ..).2 ⟨hlo, ha, hv, (Memory.wfFrom_cons ..).2 ⟨c1, h2, h3, h4⟩⟩
    · subst c2; exact (Memory.wfFrom_cons ..).2 ⟨hlo, ha, hv, h4⟩
    · exact (Memory.wfFrom_cons ..).2 ⟨h1, h2, h3, ih h4 (by omega)⟩

theorem Memory.erase_wfFrom {lo : Nat} (a : Nat) {m : Memory} (h : Memory.wfFrom lo m = true) :
    Memory.wfFrom lo (m.erase a) = true := by
  induction m generalizing lo with
  | nil => rfl
  | cons c m ih =>
    obtain ⟨k, w⟩ := c
    rw [Memory.wfFrom_cons] at h
    obtain ⟨h1, h2, h3, h4⟩ := h
    simp only [Memory.erase, List.filter_cons]
    split_ifs
    · exact (Memory.wfFrom_cons ..).2 ⟨h1, h2, h3, ih h4⟩
    · exact Memory.wfFrom_mono (ih h4) (by omega)

/-- A write to an existing cell keeps the canonical form. -/
theorem Memory.set_wf {m : Memory} {a : Nat} (v : Byte) (h : m.wf = true) (ha : a < Config.memSize) :
    (m.set a v).wf = true := by
  unfold Memory.set
  split
  · exact Memory.erase_wfFrom a h
  · exact Memory.insert_wfFrom h (Nat.zero_le _) ha ‹_›

/-- Loading bytes keeps the canonical form, wherever they start. -/
theorem Memory.load_wf {m : Memory} (a : Nat) (bs : List Byte) (h : m.wf = true) : (m.load a bs).wf = true := by
  induction bs generalizing m a with
  | nil => exact h
  | cons b bs ih =>
    simp only [Memory.load]
    apply ih
    split
    · exact Memory.set_wf b h ‹_›
    · exact h

/-- What a cell holds after loading: the loaded byte where one lands in memory, else what was there. -/
theorem Memory.load_get (m : Memory) (a : Nat) (bs : List Byte) (c : Nat) :
    (m.load a bs).get c =
      if h : a ≤ c ∧ c - a < bs.length ∧ c < Config.memSize then bs[c - a]'h.2.1 else m.get c := by
  induction bs generalizing m a with
  | nil => simp [Memory.load]
  | cons b bs ih =>
    rw [Memory.load, ih]
    by_cases hc : c = a
    · subst hc
      by_cases hm : c < Config.memSize <;> simp [hm]
    · have hget : (if a < Config.memSize then m.set a b else m).get c = m.get c := by
        split <;> simp [hc]
      rw [hget]
      by_cases h : a + 1 ≤ c ∧ c - (a + 1) < bs.length ∧ c < Config.memSize
      · have h' : a ≤ c ∧ c - a < (b :: bs).length ∧ c < Config.memSize := by
          simp only [List.length_cons]; omega
        have hk : c - a = (c - (a + 1)) + 1 := by omega
        rw [dif_pos h, dif_pos h']
        simp [hk]
      · have h' : ¬ (a ≤ c ∧ c - a < (b :: bs).length ∧ c < Config.memSize) := by
          simp only [List.length_cons]; omega
        rw [dif_neg h, dif_neg h']

theorem Memory.get_of_lt {lo a : Nat} {m : Memory} (h : Memory.wfFrom lo m = true) (ha : a < lo) : m.get a = 0 := by
  induction m generalizing lo with
  | nil => rfl
  | cons c m ih =>
    obtain ⟨k, w⟩ := c
    rw [Memory.wfFrom_cons] at h
    obtain ⟨h1, _, _, h4⟩ := h
    rw [Memory.get, if_neg (by omega)]
    exact ih h4 (by omega)

/-- Canonical memories that read alike are the same list: equal memories are equal data. -/
theorem Memory.ext_of_wf {lo : Nat} {m n : Memory} (hm : Memory.wfFrom lo m = true) (hn : Memory.wfFrom lo n = true)
    (h : ∀ a, m.get a = n.get a) : m = n := by
  induction m generalizing lo n with
  | nil =>
    cases n with
    | nil => rfl
    | cons c n =>
      obtain ⟨k, w⟩ := c
      rw [Memory.wfFrom_cons] at hn
      have := h k
      simp only [Memory.get, if_true] at this
      exact absurd this.symm hn.2.2.1
  | cons c m ih =>
    obtain ⟨k, w⟩ := c
    rw [Memory.wfFrom_cons] at hm
    obtain ⟨_, _, hw, hm'⟩ := hm
    cases n with
    | nil =>
      have := h k
      simp only [Memory.get, if_true] at this
      exact absurd this hw
    | cons d n =>
      obtain ⟨l, x⟩ := d
      rw [Memory.wfFrom_cons] at hn
      obtain ⟨_, _, hx, hn'⟩ := hn
      have hk := h k
      have hl := h l
      simp only [Memory.get, if_true] at hk hl
      have hkl : k = l := by
        rcases Nat.lt_trichotomy k l with c | c | c
        · rw [if_neg (by omega), Memory.get_of_lt hn' (by omega)] at hk; exact absurd hk hw
        · exact c
        · rw [if_neg (by omega), Memory.get_of_lt hm' (by omega)] at hl; exact absurd hl.symm hx
      subst hkl
      rw [if_pos rfl] at hk
      rw [hk, ih hm' hn' fun a => ?_]
      by_cases ha : a = k
      · subst ha; rw [Memory.get_of_lt hm' (by omega), Memory.get_of_lt hn' (by omega)]
      · have := h a
        simpa only [Memory.get, if_neg (Ne.symm ha)] using this

end Sys2Proof.Machine
end

