-- ==== Sys2Proof/Laws/Ops.lean ====
section
/-! SUPPORT. One lemma per shared operation that says everything it can answer, so that no later proof unfolds it. -/

namespace Sys2Proof.Machine

theorem memRead_of_lt {a : Nat} (s : State) (h : a < 256) : memRead a s = .ok (s.byteAt a) := by
  simp [memRead, Config.memSize, Nat.not_le.2 h]

theorem memRead_of_le {a : Nat} (s : State) (h : 256 ≤ a) : memRead a s = .error (.outOfBoundsAccess .memory a) := by
  simp [memRead, Config.memSize, h]

theorem memWrite_of_lt {a : Nat} (v : Byte) (s : State) (h : a < 256) : memWrite a v s = .ok (s.setByte a v) := by
  simp [memWrite, Config.memSize, Nat.not_le.2 h]

theorem memWrite_of_le {a : Nat} (v : Byte) (s : State) (h : 256 ≤ a) :
    memWrite a v s = .error (.outOfBoundsAccess .memory a) := by
  simp [memWrite, Config.memSize, h]

/-- Reading `n` bytes that all exist gives them in order. -/
theorem memReadBytes_of_le {n a : Nat} (s : State) (h : a + n ≤ 256) :
    memReadBytes n a s = .ok ((List.range' a n).map s.byteAt) := by
  induction n generalizing a with
  | zero => rfl
  | succ n ih =>
    simp only [memReadBytes, memRead_of_lt s (show a < 256 by omega), ih (show a + 1 + n ≤ 256 by omega)]
    simp [bind, Except.bind, pure, Except.pure, List.range'_succ]

/-- Reading bytes that do not all exist raises at the first one outside memory. -/
theorem memReadBytes_of_lt {n a : Nat} (s : State) (h : 256 < a + n) (hn : 0 < n) :
    memReadBytes n a s = .error (.outOfBoundsAccess .memory (max a 256)) := by
  induction n generalizing a with
  | zero => omega
  | succ n ih =>
    simp only [memReadBytes]
    by_cases ha : a < 256
    · rw [memRead_of_lt s ha, ih (by omega) (by omega)]
      simp [bind, Except.bind]
      omega
    · rw [memRead_of_le s (by omega)]
      simp [bind, Except.bind]
      omega

/-- A legal register field names its register. -/
theorem regOperand_of_lt {f : Byte} (h : f.toNat < 8) : regOperand f = .ok ⟨f.toNat, h⟩ := by
  simp [regOperand, h]

/-- An illegal register field raises. -/
theorem regOperand_of_le {f : Byte} (h : 8 ≤ f.toNat) :
    regOperand f = .error (.outOfBoundsAccess .register f.toNat) := by
  simp [regOperand, h]

/-- A register field answers a register exactly when the byte is that register's number. -/
theorem regOperand_eq_ok {f : Byte} {i : Fin Config.numRegs} : regOperand f = .ok i ↔ f.toNat = i.val := by
  unfold regOperand
  split
  · simp [Fin.ext_iff]
  · have := i.isLt
    simp only [reduceCtorEq, false_iff]
    omega

/-- The register a field names, when the field is given as the register's number. -/
theorem regOperand_of_eq {f : Byte} {i : Fin Config.numRegs} (h : f.toNat = i.val) : regOperand f = .ok i :=
  regOperand_eq_ok.2 h

/-- `PushSlot` on a stack pointer that may move down (20_memory.md R54). -/
theorem pushSlot_ok {s : State} (h0 : 0 < s.sp.toNat) (h1 : s.sp.toNat - 1 ≤ 0xF4) :
    pushSlot s = .ok (s.sp.toNat - 1, s.setSp (s.sp - 1)) := by
  have hsub : (s.sp - 1).toNat = s.sp.toNat - 1 := by
    bv_omega
  have ht : Config.stackTop.toNat = 0xF4 := rfl
  rw [pushSlot, if_neg (by omega), if_neg (by omega), setSp_sp, hsub]

/-- `PushSlot` on a stack pointer that may not (20_memory.md R54). -/
theorem pushSlot_error {s : State} (h : s.sp.toNat = 0 ∨ 0xF4 < s.sp.toNat - 1) :
    pushSlot s = .error (.stackOverflow s.sp) := by
  have ht : Config.stackTop.toNat = 0xF4 := rfl
  unfold pushSlot
  split_ifs
  · rfl
  · rfl
  · omega

/-- `PopSlot` on a stack that holds a byte (20_memory.md R55). -/
theorem popSlot_ok {s : State} (h : s.sp.toNat < 0xF4) : popSlot s = .ok s.sp.toNat := by
  have ht : Config.stackTop.toNat = 0xF4 := rfl
  rw [popSlot, if_neg (by omega)]

/-- `PopSlot` on an empty stack, or with SP above its top (20_memory.md R55). -/
theorem popSlot_error {s : State} (h : 0xF4 ≤ s.sp.toNat) : popSlot s = .error (.stackUnderflow s.sp) := by
  have ht : Config.stackTop.toNat = 0xF4 := rfl
  rw [popSlot, if_pos (by omega)]

@[simp] theorem execute_ok (m : Mnemonic) (s t : State) : execute m s (.ok t) = .next t := rfl

@[simp] theorem execute_error (m : Mnemonic) (s : State) (c : FaultCause) :
    execute m s (.error c) = .next (raise c (some m.opcode) s) := rfl

/-- An instruction answers a next state, whatever its pseudocode came to. -/
theorem execute_next (m : Mnemonic) (s : State) (r : Except FaultCause State) : ∃ t, execute m s r = .next t := by
  cases r <;> exact ⟨_, rfl⟩

/-! ### The ALU's six operations -/

theorem alu_add (a b : Byte) : alu (Mnemonic.opcode .add) a b = .ok { result := some (a + b), flags := none } := by
  simp only [alu, lookupOpcode_opcode]
  congr 2
  exact congrArg some (BitVec.eq_of_toNat_eq (by simp))

theorem alu_mul (a b : Byte) : alu (Mnemonic.opcode .mul) a b = .ok { result := some (a * b), flags := none } := by
  simp only [alu, lookupOpcode_opcode]
  congr 2
  exact congrArg some (BitVec.eq_of_toNat_eq (by simp))

theorem alu_cmp (a b : Byte) :
    alu (Mnemonic.opcode .cmp) a b = .ok { result := none, flags := some (compareFlags a b) } := rfl

theorem alu_and (a b : Byte) : alu (Mnemonic.opcode .and) a b = .ok { result := some (a &&& b), flags := none } := rfl

theorem alu_or (a b : Byte) : alu (Mnemonic.opcode .or) a b = .ok { result := some (a ||| b), flags := none } := rfl

theorem alu_xor (a b : Byte) : alu (Mnemonic.opcode .xor) a b = .ok { result := some (a ^^^ b), flags := none } := rfl

/-- What CMP puts into FL, case by case. -/
theorem compareFlags_cases (a b : Byte) :
    (a.toNat = b.toNat ∧ compareFlags a b = 0x01) ∨ (b.toNat < a.toNat ∧ compareFlags a b = 0x02) ∨
    (a.toNat < b.toNat ∧ compareFlags a b = 0x04) := by
  unfold compareFlags
  split_ifs with h1 h2
  · exact .inl ⟨h1, rfl⟩
  · exact .inr (.inl ⟨h2, rfl⟩)
  · exact .inr (.inr ⟨by omega, rfl⟩)

end Sys2Proof.Machine
end

