-- ==== Sys2Proof/Laws/Exec.lean ====
section
/-! SUPPORT. Said once, for every instruction: what its execution can come to. `Completes` lists the sixteen normal
outcomes, and `exec_cases` says that an execution is one of them or raises the fault `executeFault` gives; later proofs about
`exec` cite it instead of unfolding a meaning. -/

namespace Sys2Proof.Machine

/-- The state after PUSH or CALL has taken a slot: SP one lower (20_memory.md R54). -/
abbrev afterPushSlot (s : State) : State := s.setSp (s.sp - 1)

/-- The normal outcome of each instruction, with the operands and the stack pointer it needs. -/
inductive Completes (s : State) : Instr → State → Prop where
  | hlt : Completes s .hlt s.halt
  | ret : s.sp.toNat < 0xF4 →
      Completes s .ret ((s.setPc (s.byteAt s.sp.toNat).toNat).setSp (s.sp + 1))
  | push (r : Byte) (i : Fin 8) : r.toNat = i.val → 0 < s.sp.toNat → s.sp.toNat - 1 ≤ 0xF4 →
      Completes s (.push r)
        (((afterPushSlot s).setByte (s.sp.toNat - 1) ((afterPushSlot s).reg i)).advance 2)
  | pop (r : Byte) (i : Fin 8) : r.toNat = i.val → s.sp.toNat < 0xF4 →
      Completes s (.pop r)
        (((s.setReg i (s.byteAt s.sp.toNat)).setSp ((s.setReg i (s.byteAt s.sp.toNat)).sp + 1)).advance 2)
  | prn (r : Byte) (i : Fin 8) : r.toNat = i.val → Completes s (.prn r) ((s.emit (s.reg i)).advance 2)
  | call (r : Byte) (i : Fin 8) : r.toNat = i.val → 0 < s.sp.toNat → s.sp.toNat - 1 ≤ 0xF4 →
      s.pc + 2 ≤ 255 →
      Completes s (.call r)
        (((afterPushSlot s).setByte (s.sp.toNat - 1) (BitVec.ofNat 8 (s.pc + 2))).setPc ((afterPushSlot s).reg i).toNat)
  | jmp (r : Byte) (i : Fin 8) : r.toNat = i.val → Completes s (.jmp r) (s.setPc (s.reg i).toNat)
  | jeq (r : Byte) (i : Fin 8) : r.toNat = i.val →
      Completes s (.jeq r) (s.setPc (if flagE s.fl then (s.reg i).toNat else s.pc + 2))
  | jne (r : Byte) (i : Fin 8) : r.toNat = i.val →
      Completes s (.jne r) (s.setPc (if flagE s.fl then s.pc + 2 else (s.reg i).toNat))
  | ldi (r imm : Byte) (i : Fin 8) : r.toNat = i.val →
      Completes s (.ldi r imm) ((s.setReg i imm).advance 3)
  | add (ra rb : Byte) (i j : Fin 8) : ra.toNat = i.val → rb.toNat = j.val →
      Completes s (.add ra rb) ((s.setReg i (s.reg i + s.reg j)).advance 3)
  | mul (ra rb : Byte) (i j : Fin 8) : ra.toNat = i.val → rb.toNat = j.val →
      Completes s (.mul ra rb) ((s.setReg i (s.reg i * s.reg j)).advance 3)
  | cmp (ra rb : Byte) (i j : Fin 8) : ra.toNat = i.val → rb.toNat = j.val →
      Completes s (.cmp ra rb) ((s.setFl (compareFlags (s.reg i) (s.reg j))).advance 3)
  | and (ra rb : Byte) (i j : Fin 8) : ra.toNat = i.val → rb.toNat = j.val →
      Completes s (.and ra rb) ((s.setReg i (s.reg i &&& s.reg j)).advance 3)
  | or (ra rb : Byte) (i j : Fin 8) : ra.toNat = i.val → rb.toNat = j.val →
      Completes s (.or ra rb) ((s.setReg i (s.reg i ||| s.reg j)).advance 3)
  | xor (ra rb : Byte) (i j : Fin 8) : ra.toNat = i.val → rb.toNat = j.val →
      Completes s (.xor ra rb) ((s.setReg i (s.reg i ^^^ s.reg j)).advance 3)

/-! ### Each instruction's normal outcome is what `exec` answers -/

/-- The register check, then the rest: the shape of every meaning with one register field. -/
theorem bind_regOperand {α : Type} {r : Byte} {i : Fin 8} (h : r.toNat = i.val)
    (k : Fin 8 → Except FaultCause α) : (regOperand r >>= k) = k i := by
  rw [regOperand_of_eq h]; rfl

theorem bind_regOperands {α : Type} {ra rb : Byte} {i j : Fin 8} (ha : ra.toNat = i.val) (hb : rb.toNat = j.val)
    (k : Fin 8 × Fin 8 → Except FaultCause α) : (regOperands ra rb >>= k) = k (i, j) := by
  rw [regOperands, bind_regOperand ha, bind_regOperand hb]; rfl

/-- A two-register instruction, given what the ALU answers. -/
theorem executeTwoRegister_ok {m : Mnemonic} {ra rb : Byte} {i j : Fin 8} (s : State) {r : AluResult}
    (ha : ra.toNat = i.val) (hb : rb.toNat = j.val) (hr : alu m.opcode (s.reg i) (s.reg j) = .ok r) :
    executeTwoRegister m ra rb s = .next ((r.writeBack i s).advance m.width) := by
  rw [executeTwoRegister, bind_regOperands ha hb]
  dsimp only
  rw [hr]
  rfl

/-- `exec` answers the normal outcome where there is one. -/
theorem exec_of_completes {i : Instr} {s t : State} (h : Completes s i t) : exec i s = .next t := by
  cases h with
  | hlt => rfl
  | ret hs =>
    simp only [exec, execRet, popSlot_ok hs]
    simp only [bind, Except.bind, memRead_of_lt s (show s.sp.toNat < 256 by omega)]
    rfl
  | push r i hr h0 h1 =>
    simp only [exec, execPush, bind_regOperand hr, pushSlot_ok h0 h1]
    simp only [bind, Except.bind, memWrite_of_lt _ _ (show s.sp.toNat - 1 < 256 by omega)]
    rfl
  | pop r i hr hs =>
    simp only [exec, execPop, bind_regOperand hr, popSlot_ok hs]
    simp only [bind, Except.bind, memRead_of_lt s (show s.sp.toNat < 256 by omega)]
    rfl
  | prn r i hr => simp only [exec, execPrn, bind_regOperand hr]; rfl
  | call r i hr h0 h1 h2 =>
    simp only [exec, execCall, bind_regOperand hr, pushSlot_ok h0 h1]
    simp only [bind, Except.bind, if_neg (show ¬ 255 < s.pc + 2 by omega), pure, Except.pure,
      memWrite_of_lt _ _ (show s.sp.toNat - 1 < 256 by omega)]
    rfl
  | jmp r i hr => simp only [exec, execJmp, bind_regOperand hr]; rfl
  | jeq r i hr => simp only [exec, execJeq, bind_regOperand hr]; rfl
  | jne r i hr => simp only [exec, execJne, bind_regOperand hr]; rfl
  | ldi r imm i hr => simp only [exec, execLdi, bind_regOperand hr]; rfl
  | add ra rb i j ha hb => exact executeTwoRegister_ok s ha hb (alu_add ..)
  | mul ra rb i j ha hb => exact executeTwoRegister_ok s ha hb (alu_mul ..)
  | cmp ra rb i j ha hb => exact executeTwoRegister_ok s ha hb (alu_cmp ..)
  | and ra rb i j ha hb => exact executeTwoRegister_ok s ha hb (alu_and ..)
  | or ra rb i j ha hb => exact executeTwoRegister_ok s ha hb (alu_or ..)
  | xor ra rb i j ha hb => exact executeTwoRegister_ok s ha hb (alu_xor ..)

/-! ### Raising -/

theorem bind_regOperand_illegal {α : Type} {r : Byte} (h : 8 ≤ r.toNat) (k : Fin 8 → Except FaultCause α) :
    (regOperand r >>= k) = .error (.outOfBoundsAccess .register r.toNat) := by
  rw [regOperand_of_le h]; rfl

/-- A field is a register's number, or illegal. -/
theorem field_cases (r : Byte) : (∃ i : Fin 8, r.toNat = i.val) ∨ 8 ≤ r.toNat := by
  rcases Nat.lt_or_ge r.toNat 8 with h | h
  · exact .inl ⟨⟨r.toNat, h⟩, rfl⟩
  · exact .inr h

theorem firstIllegalField_one_legal {r : Byte} {i : Fin 8} (h : r.toNat = i.val) : firstIllegalField [r] = none := by
  have := i.isLt
  simp only [firstIllegalField]
  rw [if_neg (by omega)]

theorem firstIllegalField_one_illegal {r : Byte} (h : 8 ≤ r.toNat) :
    firstIllegalField [r] = some (.outOfBoundsAccess .register r.toNat) := by
  simp [firstIllegalField, h]

/-- What two register fields come to: both legal, or the first illegal one in byte order. -/
theorem two_fields_cases (ra rb : Byte) :
    (∃ i j : Fin 8, ra.toNat = i.val ∧ rb.toNat = j.val ∧ firstIllegalField [ra, rb] = none) ∨
    ∃ c, firstIllegalField [ra, rb] = some c ∧ regOperands ra rb = .error c := by
  rcases field_cases ra with ⟨i, hi⟩ | hi
  · have hlt : ¬ 8 ≤ ra.toNat := by omega
    rcases field_cases rb with ⟨j, hj⟩ | hj
    · have hlt' : ¬ 8 ≤ rb.toNat := by omega
      exact .inl ⟨i, j, hi, hj, by simp [firstIllegalField, hlt, hlt']⟩
    · exact .inr ⟨_, by simp [firstIllegalField, hlt, hj]; rfl,
        by rw [regOperands, bind_regOperand hi, bind_regOperand_illegal hj]⟩
  · exact .inr ⟨_, by simp [firstIllegalField, hi]; rfl, by rw [regOperands, bind_regOperand_illegal hi]⟩

/-- What PUSH and CALL find of the stack pointer. -/
theorem push_cases (s : State) :
    (0 < s.sp.toNat ∧ s.sp.toNat - 1 ≤ 0xF4 ∧ pushFault s = none) ∨
    (pushFault s = some (.stackOverflow s.sp) ∧ pushSlot s = .error (.stackOverflow s.sp)) := by
  unfold pushFault
  split_ifs with h
  · exact .inr ⟨rfl, pushSlot_error h⟩
  · exact .inl ⟨by omega, by omega, rfl⟩

/-- What POP and RET find of the stack pointer. -/
theorem pop_cases (s : State) :
    (s.sp.toNat < 0xF4 ∧ popFault s = none) ∨
    (popFault s = some (.stackUnderflow s.sp) ∧ popSlot s = .error (.stackUnderflow s.sp)) := by
  unfold popFault
  split_ifs with h
  · exact .inr ⟨rfl, popSlot_error h⟩
  · exact .inl ⟨by omega, rfl⟩

/-- An instruction raises the cause given for it. -/
abbrev Raises (i : Instr) (s : State) : Prop :=
  ∃ c, executeFault i s = some c ∧ exec i s = .next (raise c (some i.mnemonic.opcode) s)

/-- An instruction has no fault and its normal outcome. -/
abbrev Normal (i : Instr) (s : State) : Prop := executeFault i s = none ∧ ∃ t, Completes s i t

theorem two_register_cases {i : Instr} {m : Mnemonic} {ra rb : Byte} (s : State) (hm : i.mnemonic = m)
    (hf : i.regFields = [ra, rb]) (ho : ownFault i s = none) (he : exec i s = executeTwoRegister m ra rb s)
    (hc : ∀ a b : Fin 8, ra.toNat = a.val → rb.toNat = b.val → ∃ t, Completes s i t) : Raises i s ∨ Normal i s := by
  rcases two_fields_cases ra rb with ⟨a, b, ha, hb, hn⟩ | ⟨c, hc', hr⟩
  · exact .inr ⟨by simp [executeFault, hf, hn, ho], hc a b ha hb⟩
  · refine .inl ⟨c, by simp [executeFault, hf, hc'], ?_⟩
    rw [he, executeTwoRegister, hr, hm]
    rfl

theorem one_register_cases {i : Instr} {r : Byte} {k : Fin 8 → Except FaultCause State} (s : State)
    (hf : i.regFields = [r]) (he : exec i s = execute i.mnemonic s (regOperand r >>= k))
    (hc : ∀ a : Fin 8, r.toNat = a.val → firstIllegalField [r] = none → Raises i s ∨ Normal i s) :
    Raises i s ∨ Normal i s := by
  rcases field_cases r with ⟨a, ha⟩ | ha
  · exact hc a ha (firstIllegalField_one_legal ha)
  · refine .inl ⟨_, by simp only [executeFault, hf, firstIllegalField_one_illegal ha]; rfl, ?_⟩
    rw [he, bind_regOperand_illegal ha, execute_error]

/-- Every execution of every instruction from every state: it raises the one fault that comes first, or it completes. -/
theorem raises_or_normal (i : Instr) (s : State) : Raises i s ∨ Normal i s := by
  cases i with
  | hlt => exact .inr ⟨rfl, _, .hlt⟩
  | ret =>
    rcases pop_cases s with ⟨h, hn⟩ | ⟨hf, he⟩
    · exact .inr ⟨by simp [executeFault, Instr.regFields, firstIllegalField, ownFault, hn], _, .ret h⟩
    · refine .inl ⟨_, by simp only [executeFault, Instr.regFields, firstIllegalField, ownFault, hf]; rfl, ?_⟩
      simp only [exec, execRet, he]; rfl
  | push r =>
    refine one_register_cases s rfl rfl fun a ha hl => ?_
    rcases push_cases s with ⟨h0, h1, hn⟩ | ⟨hf, he⟩
    · exact .inr ⟨by simp [executeFault, Instr.regFields, hl, ownFault, hn], _, .push r a ha h0 h1⟩
    · refine .inl ⟨_, by simp only [executeFault, Instr.regFields, hl, ownFault, hf]; rfl, ?_⟩
      simp only [exec, execPush, bind_regOperand ha, he]; rfl
  | pop r =>
    refine one_register_cases s rfl rfl fun a ha hl => ?_
    rcases pop_cases s with ⟨h, hn⟩ | ⟨hf, he⟩
    · exact .inr ⟨by simp [executeFault, Instr.regFields, hl, ownFault, hn], _, .pop r a ha h⟩
    · refine .inl ⟨_, by simp only [executeFault, Instr.regFields, hl, ownFault, hf]; rfl, ?_⟩
      simp only [exec, execPop, bind_regOperand ha, he]; rfl
  | prn r =>
    refine one_register_cases s rfl rfl fun a ha hl => ?_
    exact .inr ⟨by simp [executeFault, Instr.regFields, hl, ownFault], _, .prn r a ha⟩
  | call r =>
    refine one_register_cases s rfl rfl fun a ha hl => ?_
    rcases push_cases s with ⟨h0, h1, hn⟩ | ⟨hf, he⟩
    · by_cases hp : 255 < s.pc + 2
      · refine .inl ⟨_, by simp only [executeFault, Instr.regFields, hl, ownFault, hn, if_pos hp]; rfl, ?_⟩
        simp only [exec, execCall, bind_regOperand ha, pushSlot_ok h0 h1, if_pos hp]; rfl
      · exact .inr ⟨by simp [executeFault, Instr.regFields, hl, ownFault, hn]; omega, _,
          .call r a ha h0 h1 (by omega)⟩
    · refine .inl ⟨_, by simp only [executeFault, Instr.regFields, hl, ownFault, hf]; rfl, ?_⟩
      simp only [exec, execCall, bind_regOperand ha, he]; rfl
  | jmp r =>
    refine one_register_cases s rfl rfl fun a ha hl => ?_
    exact .inr ⟨by simp [executeFault, Instr.regFields, hl, ownFault], _, .jmp r a ha⟩
  | jeq r =>
    refine one_register_cases s rfl rfl fun a ha hl => ?_
    exact .inr ⟨by simp [executeFault, Instr.regFields, hl, ownFault], _, .jeq r a ha⟩
  | jne r =>
    refine one_register_cases s rfl rfl fun a ha hl => ?_
    exact .inr ⟨by simp [executeFault, Instr.regFields, hl, ownFault], _, .jne r a ha⟩
  | ldi r imm =>
    refine one_register_cases s rfl rfl fun a ha hl => ?_
    exact .inr ⟨by simp [executeFault, Instr.regFields, hl, ownFault], _, .ldi r imm a ha⟩
  | add ra rb => exact two_register_cases s rfl rfl rfl rfl fun a b ha hb => ⟨_, .add ra rb a b ha hb⟩
  | mul ra rb => exact two_register_cases s rfl rfl rfl rfl fun a b ha hb => ⟨_, .mul ra rb a b ha hb⟩
  | cmp ra rb => exact two_register_cases s rfl rfl rfl rfl fun a b ha hb => ⟨_, .cmp ra rb a b ha hb⟩
  | and ra rb => exact two_register_cases s rfl rfl rfl rfl fun a b ha hb => ⟨_, .and ra rb a b ha hb⟩
  | or ra rb => exact two_register_cases s rfl rfl rfl rfl fun a b ha hb => ⟨_, .or ra rb a b ha hb⟩
  | xor ra rb => exact two_register_cases s rfl rfl rfl rfl fun a b ha hb => ⟨_, .xor ra rb a b ha hb⟩

/-- The inversion lemma of `exec`: what a next state can be. -/
theorem exec_cases {i : Instr} {s t : State} (h : exec i s = .next t) :
    (∃ c, executeFault i s = some c ∧ t = raise c (some i.mnemonic.opcode) s) ∨
    (executeFault i s = none ∧ Completes s i t) := by
  rcases raises_or_normal i s with ⟨c, hc, he⟩ | ⟨hn, u, hu⟩
  · rw [he] at h; exact .inl ⟨c, hc, (Host.Outcome.next.inj h).symm⟩
  · rw [exec_of_completes hu] at h; exact .inr ⟨hn, Host.Outcome.next.inj h ▸ hu⟩

end Sys2Proof.Machine
end

