-- ==== Sys2Proof/Laws/PerInstr.lean ====
section
/-! SUPPORT. Statements about the syntax of every instruction, proved per constructor: the encoding has the width the opcode
map gives (30_encoding.md R64), and the register fields are operand bytes (30_encoding.md R65, R67). -/

namespace Sys2Proof.Laws.EncodedShape

/-- The encoding is as long as the instruction is wide, and every register field is one of its operand bytes. -/
def Statement (i : Instr) : Prop := (encode i).length = i.width ∧ i.regFields <+: i.operandBytes

theorem hlt : Statement .hlt := ⟨rfl, List.prefix_refl _⟩
theorem ret : Statement .ret := ⟨rfl, List.prefix_refl _⟩
theorem push (r : Byte) : Statement (.push r) := ⟨rfl, List.prefix_refl _⟩
theorem pop (r : Byte) : Statement (.pop r) := ⟨rfl, List.prefix_refl _⟩
theorem prn (r : Byte) : Statement (.prn r) := ⟨rfl, List.prefix_refl _⟩
theorem call (r : Byte) : Statement (.call r) := ⟨rfl, List.prefix_refl _⟩
theorem jmp (r : Byte) : Statement (.jmp r) := ⟨rfl, List.prefix_refl _⟩
theorem jeq (r : Byte) : Statement (.jeq r) := ⟨rfl, List.prefix_refl _⟩
theorem jne (r : Byte) : Statement (.jne r) := ⟨rfl, List.prefix_refl _⟩
theorem ldi (r imm : Byte) : Statement (.ldi r imm) := ⟨rfl, ⟨[imm], rfl⟩⟩
theorem add (ra rb : Byte) : Statement (.add ra rb) := ⟨rfl, List.prefix_refl _⟩
theorem mul (ra rb : Byte) : Statement (.mul ra rb) := ⟨rfl, List.prefix_refl _⟩
theorem cmp (ra rb : Byte) : Statement (.cmp ra rb) := ⟨rfl, List.prefix_refl _⟩
theorem and (ra rb : Byte) : Statement (.and ra rb) := ⟨rfl, List.prefix_refl _⟩
theorem or (ra rb : Byte) : Statement (.or ra rb) := ⟨rfl, List.prefix_refl _⟩
theorem xor (ra rb : Byte) : Statement (.xor ra rb) := ⟨rfl, List.prefix_refl _⟩

end Sys2Proof.Laws.EncodedShape
end

