-- ==== Sys2Proof/Laws/Step.lean ====
section
/-! SUPPORT. The step and its fetch: one lemma per way they can go. -/

namespace Sys2Proof.Machine

/-- A step from Running runs what the fetch gives, or raises what it raises. -/
theorem step_running {s : State} (h : s.status = .running) :
    step s = match fetch s with
      | .ok i => exec i s
      | .error e => .next (raise e.cause e.opcode s) := by
  cases hf : fetch s <;> simp only [step, h, hf]

/-- A step request to a stopped engine changes nothing. -/
theorem step_stopped {s : State} (h : s.status ≠ .running) : step s = .next s := by
  unfold step
  split
  · contradiction
  · rfl
  · rfl

/-- The opcode fetch outside memory. -/
theorem fetch_past {s : State} (h : 256 ≤ s.pc) :
    fetch s = .error { cause := .outOfBoundsAccess .memory s.pc, opcode := none } := by
  simp only [fetch, memRead_of_le s h]

/-- The fetch of a byte that is no opcode. -/
theorem fetch_unknown {s : State} (h : s.pc < 256) (hl : lookupOpcode (s.byteAt s.pc) = none) :
    fetch s = .error { cause := .unknownOpcode (s.byteAt s.pc), opcode := some (s.byteAt s.pc) } := by
  simp only [fetch, memRead_of_lt s h, operandCountOf, hl, Option.map_none, Option.getD_none, memReadBytes,
    decode_unknown hl, decodeFault]

/-- The fetch of an instruction that runs past the end of memory: the first byte that is not there is reported. -/
theorem fetch_cut {s : State} {m : Mnemonic} (h : s.pc < 256) (hl : lookupOpcode (s.byteAt s.pc) = some m)
    (hw : 256 < s.pc + m.width) :
    fetch s = .error { cause := .outOfBoundsAccess .memory (max (s.pc + 1) 256), opcode := some (s.byteAt s.pc) } := by
  have hc : operandCountOf (s.byteAt s.pc) = m.format.operandCount := by simp [operandCountOf, hl]
  rw [width_eq] at hw
  simp only [fetch, memRead_of_lt s h, hc]
  rw [memReadBytes_of_lt s (by omega) (by omega)]

/-- The fetch of an instruction that lies in memory. -/
theorem fetch_ok {s : State} {m : Mnemonic} (hl : lookupOpcode (s.byteAt s.pc) = some m)
    (hw : s.pc + m.width ≤ 256) :
    fetch s = .ok (m.instr (s.byteAt (s.pc + 1)) (s.byteAt (s.pc + 2))) := by
  have hc : operandCountOf (s.byteAt s.pc) = m.format.operandCount := by simp [operandCountOf, hl]
  rw [width_eq] at hw
  simp only [fetch, memRead_of_lt s (show s.pc < 256 by omega), hc]
  rw [memReadBytes_of_le s (by omega)]
  simp only [decode_known hl]
  cases m <;> rfl

/-- Every way a fetch can go, in the order of 60_exceptions.md R115, points 1 to 3. -/
theorem fetch_cases (s : State) :
    (256 ≤ s.pc ∧ fetch s = .error { cause := .outOfBoundsAccess .memory s.pc, opcode := none }) ∨
    (s.pc < 256 ∧ lookupOpcode (s.byteAt s.pc) = none ∧
      fetch s = .error { cause := .unknownOpcode (s.byteAt s.pc), opcode := some (s.byteAt s.pc) }) ∨
    (∃ m, s.pc < 256 ∧ lookupOpcode (s.byteAt s.pc) = some m ∧ 256 < s.pc + m.width ∧
      fetch s = .error { cause := .outOfBoundsAccess .memory (max (s.pc + 1) 256), opcode := some (s.byteAt s.pc) }) ∨
    (∃ m, s.pc < 256 ∧ lookupOpcode (s.byteAt s.pc) = some m ∧ s.pc + m.width ≤ 256 ∧
      fetch s = .ok (m.instr (s.byteAt (s.pc + 1)) (s.byteAt (s.pc + 2)))) := by
  rcases Nat.lt_or_ge s.pc 256 with h | h
  · cases hl : lookupOpcode (s.byteAt s.pc) with
    | none => exact .inr (.inl ⟨h, rfl, fetch_unknown h hl⟩)
    | some m =>
      rcases Nat.lt_or_ge 256 (s.pc + m.width) with hw | hw
      · exact .inr (.inr (.inl ⟨m, h, rfl, hw, fetch_cut h hl hw⟩))
      · exact .inr (.inr (.inr ⟨m, h, rfl, hw, fetch_ok hl hw⟩))
  · exact .inl ⟨h, fetch_past h⟩

/-- One more step request. -/
theorem stepTimes_succ {s t : State} (h : step s = .next t) (n : Nat) : stepTimes (n + 1) s = stepTimes n t := by
  rw [stepTimes, h]

/-- Any number of step requests to a stopped engine change nothing. -/
theorem stepTimes_stopped {s : State} (h : s.status ≠ .running) (n : Nat) : stepTimes n s = .next s := by
  induction n with
  | zero => rfl
  | succ n ih => rw [stepTimes_succ (step_stopped h), ih]

/-- A run of a stopped engine returns at once. -/
theorem run_stopped {s : State} (h : s.status ≠ .running) (n : Nat) : run n s = .next (runResult s, s) := by
  cases n with
  | zero => rfl
  | succ n => unfold run; split <;> first | contradiction | rfl

/-- One turn of the run loop from Running. -/
theorem run_succ {s t : State} (h : s.status = .running) (hs : step s = .next t) (n : Nat) :
    run (n + 1) s = run n t := by
  rw [run]; simp only [h, hs]

end Sys2Proof.Machine
end

