-- ==== Sys2Proof/Tests/Slice0.lean ====
section
/-! SUPPORT. Tests. The expected values come from 95_test_vectors.md (V1 to V67), from the examples of the instruction rules,
and from the encoding tables of 30_encoding.md; the witness theorems show states and operands that meet the hypotheses of the
statements in Certificates/Slice0/Obligations.lean. -/

namespace Sys2Proof.Tests

open Sys2Proof.Machine

/-- A Running state with the given registers R0, R1, R2 and SP, pc, FL and memory; R3 to R6 are 0. -/
def st (r0 r1 r2 sp : Byte) (pc : Nat := 0) (fl : Byte := 0) (mem : Memory := []) : State where
  regs := #v[r0, r1, r2, 0, 0, 0, 0, sp]
  pc := pc
  fl := fl
  mem := mem
  status := .running
  out := []

/-- The next state of an outcome, if there is one. -/
def next? (o : Host.Outcome State Fault Refusal) : Option State :=
  match o with
  | .next t => some t
  | .fault _ => none
  | .refused _ => none

/-- A field of the next state. -/
def field {α : Type} (o : Host.Outcome State Fault Refusal) (f : State → α) : Option α := (next? o).map f

/-! ### Well-formedness: each register field is checked -/

theorem smoke_push_r8 : (Instr.push 8).wellFormed = false := by decide
theorem smoke_pop_r8 : (Instr.pop 8).wellFormed = false := by decide
theorem smoke_prn_r255 : (Instr.prn 255).wellFormed = false := by decide
theorem smoke_call_r8 : (Instr.call 8).wellFormed = false := by decide
theorem smoke_jmp_r9 : (Instr.jmp 9).wellFormed = false := by decide
theorem smoke_jeq_r9 : (Instr.jeq 9).wellFormed = false := by decide
theorem smoke_jne_r16 : (Instr.jne 16).wellFormed = false := by decide
theorem smoke_ldi_r8 : (Instr.ldi 8 1).wellFormed = false := by decide
theorem smoke_add_second_r8 : (Instr.add 0 8).wellFormed = false := by decide
theorem smoke_mul_first_r8 : (Instr.mul 8 0).wellFormed = false := by decide
theorem smoke_cmp_second_r8 : (Instr.cmp 7 8).wellFormed = false := by decide
theorem smoke_and_first_r128 : (Instr.and 128 7).wellFormed = false := by decide
theorem smoke_or_second_r8 : (Instr.or 0 8).wellFormed = false := by decide
theorem smoke_xor_both : (Instr.xor 8 9).wellFormed = false := by decide
/-- R7 is legal, and LDI's immediate is never checked (V17). -/
theorem smoke_ldi_immediate_free : (Instr.ldi 7 200).wellFormed = true := by decide

/-! ### Decoding: words written out from 30_encoding.md R64 and R68 -/

theorem decode_hlt : decode [0b00000001] = .ok (.hlt, []) := by decide
theorem decode_ret : decode [0b00010001, 0xEE] = .ok (.ret, [0xEE]) := by decide
theorem decode_push : decode [0b01000101, 0b00000011] = .ok (.push 3, []) := by decide
theorem decode_pop : decode [0b01000110, 0b00000111] = .ok (.pop 7, []) := by decide
theorem decode_prn : decode [0b01000111, 0b00000100] = .ok (.prn 4, []) := by decide
theorem decode_call : decode [0b01010000, 0b00000001] = .ok (.call 1, []) := by decide
theorem decode_jmp : decode [0b01010100, 0b00000011] = .ok (.jmp 3, []) := by decide
theorem decode_jeq : decode [0b01010101, 0b00000010] = .ok (.jeq 2, []) := by decide
theorem decode_jne : decode [0b01010110, 0b00000011] = .ok (.jne 3, []) := by decide
/-- The first operand byte is the register, the second the immediate (30_encoding.md R67). -/
theorem decode_ldi : decode [0b10000010, 0b00000001, 0b11001000] = .ok (.ldi 1 200, []) := by decide
theorem decode_add : decode [0b10100000, 0b00000001, 0b00000010] = .ok (.add 1 2, []) := by decide
theorem decode_mul : decode [0b10100010, 0b00000011, 0b00000100] = .ok (.mul 3 4, []) := by decide
theorem decode_cmp : decode [0b10100111, 0b00000101, 0b00000110] = .ok (.cmp 5 6, []) := by decide
theorem decode_and : decode [0b10101000, 0b00000111, 0b00000000] = .ok (.and 7 0, []) := by decide
theorem decode_or : decode [0b10101010, 0b00000000, 0b00000001] = .ok (.or 0 1, []) := by decide
theorem decode_xor : decode [0b10101011, 0b00000010, 0b00000001, 0x01] = .ok (.xor 2 1, [0x01]) := by decide
/-- A register byte of 8 is an illegal operand of the same instruction (30_encoding.md R70), not another instruction. -/
theorem decode_ldi_r8 : decode [0x82, 0x08, 0x01] = .ok (.ldi 8 1, []) := by decide
/-- V59, V60: bytes that are no opcode. -/
theorem decode_zero : decode [0x00] = .error (.unknownOpcode 0x00) := by decide
theorem decode_two : decode [0x02, 0x00] = .error (.unknownOpcode 0x02) := by decide
/-- V62: LDI needs two operand bytes. -/
theorem decode_ldi_cut : decode [0x82, 0x00] = .error (.missingByte 2) := by decide
theorem decode_push_cut : decode [0x45] = .error (.missingByte 1) := by decide

/-! ### Data movement (V1 to V17) -/

/-- V1. -/
theorem test_ldi_r3 : field (exec (.ldi 3 0xFF) State.reset) (fun t => (t.reg 3, t.pc)) = some (0xFF, 3) := by decide
/-- V2: no range check on a write to SP. -/
theorem test_ldi_sp : field (exec (.ldi 7 0xFF) State.reset) (fun t => (t.sp, t.status)) = some (0xFF, .running) := by
  decide
/-- V5. -/
theorem test_prn : field (exec (.prn 1) (st 0 0x2A 0 0xF4)) (fun t => (t.out, t.pc)) = some ([0x2A], 2) := by decide
/-- V7: PUSH R7 stores the new SP. -/
theorem test_push_r7 :
    field (exec (.push 7) State.reset) (fun t => (t.sp, t.byteAt 0xF3, t.pc)) = some (0xF3, 0xF3, 2) := by decide
/-- V9: a push from SP = 0xF6 overflows; V10 is in `witness_push`. -/
theorem test_push_above_top :
    field (exec (.push 0) (st 0 0 0 0xF6)) (fun t => (t.sp, t.status)) =
      some (0xF6, .faulted ⟨.stackOverflow 0xF6, 0, some 0x45⟩) := by decide
/-- V14: POP R7 wraps modulo 256. -/
theorem test_pop_r7_wraps :
    field (exec (.pop 7) (st 0 0 0 0xF3 0 0 [(0xF3, 0xFF)])) (fun t => (t.sp, t.pc)) = some (0x00, 2) := by decide
/-- V15: the popped cell keeps its value. -/
theorem test_pop :
    field (exec (.pop 1) (st 0 0 0 0xF3 0 0 [(0xF3, 0x77)])) (fun t => (t.reg 1, t.sp, t.byteAt 0xF3)) =
      some (0x77, 0xF4, 0x77) := by decide

/-! ### Control flow (V18 to V32) -/

/-- V18. -/
theorem test_call :
    field (exec (.call 1) (st 0 11 0 0xF4 6)) (fun t => (t.sp, t.byteAt 0xF3, t.pc)) = some (0xF3, 8, 11) := by decide
/-- V21: with SP = 0 and pc = 254 both of CALL's faults apply; the stack's is reported. -/
theorem test_call_order :
    field (exec (.call 0) (st 0 0 0 0 254)) (fun t => t.status) =
      some (.faulted ⟨.stackOverflow 0, 254, some 0x50⟩) := by decide
/-- V22. -/
theorem test_ret : field (exec .ret (st 0 0 0 0xF3 0 0 [(0xF3, 8)])) (fun t => (t.pc, t.sp)) = some (8, 0xF4) := by decide
/-- V23. -/
theorem test_ret_empty :
    field (exec .ret State.reset) (fun t => (t.pc, t.status)) =
      some (0, .faulted ⟨.stackUnderflow 0xF4, 0, some 0x11⟩) := by decide
/-- V24. -/
theorem test_jmp : field (exec (.jmp 2) (st 0 0 0x20 0xF4)) (fun t => t.pc) = some 0x20 := by decide
/-- V26. -/
theorem test_jeq_taken : field (exec (.jeq 2) (st 0 0 0x40 0xF4 12 0x01)) (fun t => t.pc) = some 0x40 := by decide
/-- S7: FL.G alone does not make JEQ jump. -/
theorem test_jeq_not_taken : field (exec (.jeq 2) (st 0 0 0x40 0xF4 12 0x02)) (fun t => t.pc) = some 14 := by decide
/-- V29. -/
theorem test_jne_taken : field (exec (.jne 2) (st 0 0 0x40 0xF4 12 0x04)) (fun t => t.pc) = some 0x40 := by decide
/-- V30. -/
theorem test_jne_not_taken : field (exec (.jne 2) (st 0 0 0x40 0xF4 12 0x01)) (fun t => t.pc) = some 14 := by decide
/-- V32. -/
theorem test_hlt : field (exec .hlt (st 0 0 0 0xF4 5)) (fun t => (t.status, t.pc)) = some (.halted, 5) := by decide

/-! ### ALU and bitwise (V33 to V58) -/

/-- V33. -/
theorem test_add :
    field (exec (.add 0 1) (st 200 100 0 0xF4 0 0x02)) (fun t => (t.reg 0, t.reg 1, t.fl, t.pc)) =
      some (44, 100, 0x02, 3) := by decide
/-- V49: ADD R7,R7 has no stack check. -/
theorem test_add_sp : field (exec (.add 7 7) State.reset) (fun t => t.sp) = some 0xE8 := by decide
/-- V38. -/
theorem test_mul : field (exec (.mul 0 1) (st 255 255 0 0xF4)) (fun t => (t.reg 0, t.reg 1)) = some (1, 255) := by decide
/-- V45: the compare is unsigned. -/
theorem test_cmp_unsigned : field (exec (.cmp 0 1) (st 0 255 0 0xF4)) (fun t => (t.fl, t.pc)) = some (0x04, 3) := by decide
/-- V48: no accumulation. -/
theorem test_cmp_clears : field (exec (.cmp 0 1) (st 6 6 0 0xF4 0 0x04)) (fun t => (t.fl, t.reg 0)) = some (0x01, 6) := by
  decide
/-- V52. -/
theorem test_and : field (exec (.and 0 1) (st 0xF0 0x3C 0 0xF4)) (fun t => (t.reg 0, t.reg 1)) = some (0x30, 0x3C) := by
  decide
/-- V55. -/
theorem test_or : field (exec (.or 0 1) (st 0x0C 0x3C 0 0xF4)) (fun t => (t.reg 0, t.pc)) = some (0x3C, 3) := by decide
/-- V56. -/
theorem test_xor : field (exec (.xor 0 1) (st 0xAA 0xFF 0 0xF4)) (fun t => (t.reg 0, t.fl)) = some (0x55, 0) := by decide
/-- V57: XOR sets no flag when its result is 0. -/
theorem test_xor_self : field (exec (.xor 0 0) (st 0xAA 0 0 0xF4)) (fun t => (t.reg 0, t.fl)) = some (0, 0) := by decide

/-! ### The engine (V59 to V67) -/

/-- V59: an unwritten cell is no opcode. -/
theorem test_step_reset :
    field (step State.reset) (fun t => t.status) = some (.faulted ⟨.unknownOpcode 0x00, 0, some 0x00⟩) := by decide
/-- V61: the opcode field is none when the fetch itself faults. -/
theorem test_step_past_memory :
    field (step (st 0 0 0 0xF4 256)) (fun t => t.status) =
      some (.faulted ⟨.outOfBoundsAccess .memory 256, 256, none⟩) := by decide
/-- V62. -/
theorem test_step_operand_cut :
    field (step (st 0 0 0 0xF4 254 0 [(254, 0x82)])) (fun t => t.status) =
      some (.faulted ⟨.outOfBoundsAccess .memory 256, 254, some 0x82⟩) := by decide
/-- V64: a one-byte instruction at 255 executes. -/
theorem test_step_ret_at_255 :
    field (step (st 0 0 0 0xF3 255 0 [(0xF3, 4), (255, 0x11)])) (fun t => (t.pc, t.sp)) = some (4, 0xF4) := by decide
/-- V65. -/
theorem test_step_illegal_field :
    field (step (st 0 0 0 0xF4 0 0 [(0, 0x47), (1, 8)])) (fun t => (t.status, t.out)) =
      some (.faulted ⟨.outOfBoundsAccess .register 8, 0, some 0x47⟩, []) := by decide
/-- V51: the first illegal field is reported. -/
theorem test_two_illegal_fields :
    field (exec (.add 9 8) State.reset) (fun t => t.status) =
      some (.faulted ⟨.outOfBoundsAccess .register 9, 0, some 0xA0⟩) := by decide
/-- A word placed where the step fetches is what it runs: LDI R0,8 is the bytes 82 00 08 (R87's example). -/
theorem test_place_ldi :
    field (step (State.reset.withFetchWord 24 0x080082)) (fun t => (t.reg 0, t.pc)) = some (8, 3) := by decide
/-- A table word of 8 bits leaves the operand byte zero: the word of PUSH is PUSH R0. -/
theorem test_table_word : decodeTableWord 8 0x45 = some (.push 0) := by decide
/-- V67: reset out of Halted keeps memory. -/
theorem test_reset_port :
    (State.reset.setByte 9 5).halt.applyReset = { State.reset with mem := [(9, 5)] } := by decide
/-- P9 ends with M[10] = 0x01 listed; writing the unwritten value takes the cell off the list. -/
theorem test_memory_canonical :
    ((State.reset.setByte 10 1).setByte 2 7).mem = [(2, 7), (10, 1)] ∧
      ((State.reset.setByte 10 1).setByte 10 0).mem = [] := by decide

/-! ### Witnesses: hypotheses of the statements met together, at the boundaries of their ranges -/

/-- LDI, PRN, JMP, JEQ, JNE: bytes 0 and 7 name the registers at both ends; JEQ and JNE have a state for each branch. -/
theorem witness_one_register :
    (0 : Byte).toNat = (0 : Fin 8).val ∧ (7 : Byte).toNat = (7 : Fin 8).val ∧
      (st 0 0 0 0xF4 0 0x01).fl.getLsbD 0 = true ∧ State.reset.fl.getLsbD 0 = false ∧ 8 ≤ (8 : Byte).toNat := by decide

/-- ADD, MUL, CMP, AND, OR, XOR and the statements about CMP: two fields, and a state for each outcome of a compare. -/
theorem witness_two_registers :
    (0 : Byte).toNat = (0 : Fin 8).val ∧ (1 : Byte).toNat = (1 : Fin 8).val ∧
      (st 5 5 0 0xF4).reg 0 = (st 5 5 0 0xF4).reg 1 ∧
      ((st 9 3 0 0xF4).reg 1).toNat < ((st 9 3 0 0xF4).reg 0).toNat ∧
      ((st 3 9 0 0xF4).reg 0).toNat < ((st 3 9 0 0xF4).reg 1).toNat := by decide

/-- PUSH: the lowest and the highest SP that pushes (V10, V11), and the nearest ones that overflow (V8, V9). -/
theorem witness_push :
    field (exec (.push 0) (st 7 0 0 1)) (fun t => (t.sp, t.byteAt 0)) = some (0, 7) ∧
      field (exec (.push 0) (st 9 0 0 0xF5)) (fun t => (t.sp, t.byteAt 0xF4)) = some (0xF4, 9) ∧
      0 < (st 7 0 0 1).sp.toNat ∧ (st 9 0 0 0xF5).sp.toNat - 1 ≤ 0xF4 ∧
      (st 0 0 0 0).sp.toNat = 0 ∧ 0xF4 < (st 0 0 0 0xF6).sp.toNat - 1 := by decide

/-- POP and RET: the highest SP that pops, SP = 0, and the lowest that underflows (V12), for R7 and for another register. -/
theorem witness_pop :
    (st 0 0 0 0xF3).sp.toNat < 0xF4 ∧ (st 0 0 0 0).sp.toNat < 0xF4 ∧ 0xF4 ≤ State.reset.sp.toNat ∧
      (7 : Byte).toNat = (7 : Fin 8).val ∧ (6 : Byte).toNat = (6 : Fin 8).val := by decide

/-- CALL: the last pc whose return address is a byte, and the first whose is not (V20). -/
theorem witness_call :
    (st 0 0 0 0xF4 253).pc + 2 ≤ 255 ∧ 255 < (st 0 0 0 0xF4 254).pc + 2 ∧ 0 < (st 0 0 0 1 253).sp.toNat ∧
      (st 0 0 0 0xF5 253).sp.toNat - 1 ≤ 0xF4 ∧ (1 : Byte).toNat = (1 : Fin 8).val := by decide

/-- PushThenPopRestoresRegisters and CallThenRetReturns: both ends of the range of SP. -/
theorem witness_push_pop :
    0 < (st 0 0 0 1).sp.toNat ∧ (st 0 0 0 1).sp.toNat ≤ 0xF4 ∧ 0 < State.reset.sp.toNat ∧ State.reset.sp.toNat ≤ 0xF4 ∧
      State.reset.pc + 2 ≤ 255 ∧ (3 : Byte).toNat = (3 : Fin 8).val := by decide

/-- PushedByteIsFetchedNext: PUSH R0 at pc 8 with SP = 11 and R0 = 0x01, as in program P9. -/
theorem witness_pushed_byte :
    (0 : Byte).toNat = (0 : Fin 8).val ∧ (st 1 0 0 11 8).status = .running ∧ (0 : Fin 8) ≠ 7 ∧ (st 1 0 0 11 8).reg 0 = 0x01 ∧
      0 < (st 1 0 0 11 8).sp.toNat ∧ (st 1 0 0 11 8).sp.toNat - 1 ≤ 0xF4 ∧
      (st 1 0 0 11 8).pc + 2 = (st 1 0 0 11 8).sp.toNat - 1 := by decide

/-- MemoryInterfaceChecksBounds: the last address that exists and the first that does not. -/
theorem witness_memory_bounds :
    (memWrite 255 7 State.reset).toOption.map (fun t => (t.byteAt 255, t.byteAt 254)) = some (7, 0) ∧
      (memWrite 256 7 State.reset).toOption = none ∧ (memRead 256 State.reset).toOption = none := by decide

/-- OnlyStackInstructionsTouchMemory: PUSH R0 changes the byte below SP; and a memory that agrees at SP. -/
theorem witness_memory_touched :
    (∃ t, exec (.push 0) (st 9 0 0 0xF4) = .next t ∧ t.byteAt 0xF3 ≠ (st 9 0 0 0xF4).byteAt 0xF3) ∧
      ∃ t, exec .ret (st 0 0 0 0xF3 0 0 [(0xF3, 8)]) = .next t ∧
        Memory.get [(0, 1), (0xF3, 8)] (st 0 0 0 0xF3).sp.toNat =
          (st 0 0 0 0xF3 0 0 [(0xF3, 8)]).byteAt (st 0 0 0 0xF3).sp.toNat :=
  ⟨⟨_, rfl, by decide⟩, ⟨_, rfl, by decide⟩⟩

/-- OnlyStackInstructionsCheckTheStack, FaultEntryChangesOnlyStatus, FaultRecordFields: a Running state whose step
overflows the stack. -/
theorem witness_stack_fault :
    (st 0 0 0 0 0 0 [(0, 0x45)]).status = .running ∧
      ∃ t, exec (.push 0) (st 0 0 0 0 0 0 [(0, 0x45)]) = .next t ∧
        step (st 0 0 0 0 0 0 [(0, 0x45)]) = .next t ∧
        t.status = .faulted ⟨.stackOverflow 0, 0, some 0x45⟩ := ⟨rfl, _, rfl, rfl, rfl⟩

/-- StackAccessesAreInBounds: PushSlot and PopSlot at the ends of their ranges. -/
theorem witness_slots :
    (pushSlot (st 0 0 0 0xF5)).toOption.map (fun p => p.1) = some 0xF4 ∧
      (pushSlot (st 0 0 0 1)).toOption.map (fun p => p.1) = some 0 ∧
      (popSlot (st 0 0 0 0xF3)).toOption = some 0xF3 := by decide

/-- OnlyCmpWritesFlags, OnlyPrnAppendsOutput, InstructionsUseOnlyTheirRegisters: instructions that answer a next state, an FL
that agrees in bit 0 only, a register file that agrees where JEQ reads, and no fault. -/
theorem witness_frames :
    (∃ t, exec (.jeq 2) (st 0 0 0x40 0xF4 12 0x01) = .next t) ∧
      (0x07 : Byte).getLsbD 0 = (st 0 0 0x40 0xF4 12 0x01).fl.getLsbD 0 ∧
      (∀ j ∈ readsRegs (.jeq 2) 0x01, (st 9 9 0x40 9).reg j = (st 0 0 0x40 0xF4).reg j) ∧
      executeFault (.jeq 2) (st 0 0 0x40 0xF4 12 0x01) = none ∧ (∃ t, exec (.prn 0) State.reset = .next t) :=
  ⟨⟨_, rfl⟩, by decide, by decide, by decide, ⟨_, rfl⟩⟩

/-- DecodeAndEncodeAgree and OpcodeAloneFixesLength: two lists with one opcode byte that decode. -/
theorem witness_decode :
    decode [0x82, 1, 2, 3] = .ok (.ldi 1 2, [3]) ∧ decode [0x82, 9, 0xFF] = .ok (.ldi 9 0xFF, []) := by decide

/-- IllegalRegisterFieldRaises: the second field of an ADD is the first illegal one, at the lowest illegal byte. -/
theorem witness_illegal_field :
    (Instr.add 7 8).regFields = [7] ++ 8 :: [] ∧ (∀ g ∈ ([7] : List Byte), g.toNat < 8) ∧ 8 ≤ (8 : Byte).toNat := by decide

/-- StepRunsDecodedInstruction: HLT in the last cell decodes. -/
theorem witness_step_decodes :
    (st 0 0 0 0xF4 255 0 [(255, 1)]).status = .running ∧
      decode ((List.range' 255 (256 - 255)).map (st 0 0 0 0xF4 255 0 [(255, 1)]).byteAt) = .ok (.hlt, []) := by decide

/-- PlacedTableWordRunsNext: at the last pc where three bytes fit. -/
theorem witness_placed : (st 0 0 0 0xF4 253).pc + 3 ≤ 256 ∧ decodeTableWord 24 0x080082 = some (.ldi 0 8) := by decide

/-- OperandFetchReadsExactBytes: an instruction that just fits, and one whose first or second operand byte does not. -/
theorem witness_operand_fetch :
    (st 0 0 0 0xF4 253 0 [(253, 0x82)]).byteAt 253 = Mnemonic.opcode .ldi ∧ 253 + Mnemonic.width .ldi ≤ 256 ∧
      256 ≤ 255 + 1 ∧ 2 ≤ Mnemonic.width .push ∧ Mnemonic.width .ldi = 3 ∧ 254 + 1 < 256 ∧ 256 ≤ 254 + 2 := by decide

/-- UnknownOpcodeRaises and FetchPastMemoryRaises: a Running state at a zero byte in the last cell, and one past memory. -/
theorem witness_bad_fetch :
    (st 0 0 0 0xF4 255).status = .running ∧ (st 0 0 0 0xF4 255).pc < 256 ∧
      lookupOpcode ((st 0 0 0 0xF4 255).byteAt 255) = none ∧ 256 ≤ (st 0 0 0 0xF4 256).pc := by decide

/-- TerminalStatusIsSticky: a Halted state. -/
theorem witness_terminal : State.reset.halt.status ≠ .running := by decide

/-- RunStepsWithinBudget: a run that ends before its budget, and one that its budget ends (P10's loop). -/
theorem witness_run :
    run 3 (st 0 0 0 0xF4 0 0 [(0, 1)]) = .next (.halted, (st 0 0 0 0xF4 0 0 [(0, 1)]).halt) ∧
      run 2 (st 3 0 0 0xF4 3 0 [(3, 0x54)]) = .next (.outOfBudget, st 3 0 0 0xF4 3 0 [(3, 0x54)]) := ⟨rfl, rfl⟩

/-- InstructionCompletesOrRaises and StepReportsFirstFault: a fault for each of the five points of 60_exceptions.md R115, and
none. -/
theorem witness_first_fault :
    firstFault (st 0 0 0 0xF4 256) = some ⟨.outOfBoundsAccess .memory 256, 256, none⟩ ∧
      firstFault State.reset = some ⟨.unknownOpcode 0, 0, some 0⟩ ∧
      firstFault (st 0 0 0 0xF4 255 0 [(255, 0x47)]) = some ⟨.outOfBoundsAccess .memory 256, 255, some 0x47⟩ ∧
      firstFault (st 0 0 0 0 0 0 [(0, 0x45), (1, 8)]) = some ⟨.outOfBoundsAccess .register 8, 0, some 0x45⟩ ∧
      firstFault (st 0 0 0 0 0 0 [(0, 0x45)]) = some ⟨.stackOverflow 0, 0, some 0x45⟩ ∧
      firstFault (st 0 0 0 0xF4 0 0 [(0, 1)]) = none := by decide

/-- NoProgramRaisesInvalidAluOperation: an operation the ALU does not have. -/
theorem witness_alu_error :
    alu (Mnemonic.opcode .ldi) 1 2 = .error (.invalidALUOperation 0x82) ∧ (0 : Byte).toNat = (0 : Fin 8).val := ⟨rfl, rfl⟩

/-- OnlyHltHalts: a Running state whose step halts. -/
theorem witness_halts :
    (st 0 0 0 0xF4 0 0 [(0, 1)]).status = .running ∧
      step (st 0 0 0 0xF4 0 0 [(0, 1)]) = .next (st 0 0 0 0xF4 0 0 [(0, 1)]).halt := ⟨rfl, rfl⟩

/-- LoadedImageStartsRun: the longest image and the shortest that is too long. -/
theorem witness_image : (List.replicate 256 (0 : Byte)).length ≤ 256 ∧ 256 < (List.replicate 257 (0 : Byte)).length := by
  simp only [List.length_replicate]; decide

/-- EveryStepKeepsInvariant and InvariantHoldsAtReset: a state that meets the invariant and is not reset, and its step. -/
theorem witness_invariant :
    Inv (st 9 3 0 0xF3 254 0x02 [(0xF3, 8), (254, 0x11)]) ∧
      ∃ t, step (st 9 3 0 0xF3 254 0x02 [(0xF3, 8), (254, 0x11)]) = .next t :=
  ⟨⟨by decide, .inr (.inr (.inl rfl)), by decide, trivial⟩, ⟨_, rfl⟩⟩

end Sys2Proof.Tests
end

section
/-! What an execution comes to when `executeFault` gives a cause and when it gives none (00_scope.md R11), and the
engine status of a normal outcome. -/

namespace Sys2Proof.Machine

/-- Fault entry, as the machine makes it, is the state after a fault that the statements write out. -/
theorem raise_eq_afterFault (c : FaultCause) (op : Option Byte) (s : State) : raise c op s = afterFault c op s := rfl

theorem exec_of_executeFault_some {i : Instr} {s : State} {c : FaultCause} (h : executeFault i s = some c) :
    exec i s = .next (afterFault c (some i.mnemonic.opcode) s) := by
  rcases raises_or_normal i s with ⟨d, hd, he⟩ | ⟨hn, -⟩
  · obtain rfl : d = c := Option.some.inj (hd.symm.trans h)
    rw [he, raise_eq_afterFault]
  · rw [hn] at h; contradiction

theorem completes_of_executeFault_none {i : Instr} {s : State} (h : executeFault i s = none) :
    ∃ t, Completes s i t := by
  rcases raises_or_normal i s with ⟨c, hc, -⟩ | ⟨-, ht⟩
  · rw [h] at hc; contradiction
  · exact ht

/-- HLT is the only instruction that writes the status when it completes (42_control_flow.md R96). -/
theorem Completes.status_of_ne_hlt {i : Instr} {s t : State} (h : Completes s i t) (hi : i ≠ .hlt) :
    t.status = s.status := by
  cases h with
  | hlt => contradiction
  | _ => simp

theorem Completes.status_of_hlt {s t : State} (h : Completes s .hlt t) : t.status = .halted := by
  cases h with
  | hlt => exact halt_status s

/-- Settles O42: by `raises_or_normal` an execution raises the cause `executeFault` gives or has one of the sixteen normal
outcomes, and of those only HLT's writes the status. -/
theorem instructionCompletesOrRaises : Obligations.InstructionCompletesOrRaises := by
  intro i s
  refine ⟨fun c hc => exec_of_executeFault_some hc, fun hn => ?_⟩
  obtain ⟨t, ht⟩ := completes_of_executeFault_none hn
  exact ⟨t, exec_of_completes ht, ht.status_of_ne_hlt, fun hi => (hi ▸ ht).status_of_hlt⟩

end Sys2Proof.Machine
end

section
/-! Who writes and who reads FL and the output port (10_state.md R30, R36), the first illegal register field (R21), and the
reset values (R39). What an execution comes to is taken from `exec_cases`; the lemmas here say how a fault and a normal
outcome depend on the one field in question. -/

namespace Sys2Proof.Machine

/-! ### Illegal register fields -/

/-- Legal fields before an illegal one do not hide it. -/
theorem firstIllegalField_append {pre post : List Byte} {f : Byte} (hpre : ∀ g ∈ pre, g.toNat < 8) (hf : 8 ≤ f.toNat) :
    firstIllegalField (pre ++ f :: post) = some (.outOfBoundsAccess .register f.toNat) := by
  induction pre with
  | nil => exact if_pos hf
  | cons g pre ih =>
    obtain ⟨hg, hpre⟩ := List.forall_mem_cons.1 hpre
    exact (if_neg (Nat.not_le.2 hg)).trans (ih hpre)

/-- The register check comes before the instruction's own checks (60_exceptions.md R115, points 4 and 5). -/
theorem executeFault_of_firstIllegalField {i : Instr} {c : FaultCause} (s : State)
    (h : firstIllegalField i.regFields = some c) : executeFault i s = some c := by
  rw [executeFault, h, Option.some_or]

/-- Settles O33: the first field of 8 or more is the fault of the execution, so the execution is that fault's entry. -/
theorem illegalRegisterFieldRaises : Obligations.IllegalRegisterFieldRaises := by
  refine ⟨fun _ _ => regOperand_eq_ok, fun i s pre post f hfields hpre hf => ?_, wellFormed_iff⟩
  have hfirst : firstIllegalField i.regFields = some (.outOfBoundsAccess .register f.toNat) := by
    rw [hfields, firstIllegalField_append hpre hf]
  exact exec_of_executeFault_some (executeFault_of_firstIllegalField s hfirst)

/-! ### The flags register -/

/-- No check reads FL. -/
@[simp] theorem executeFault_setFl (i : Instr) (s : State) (v : Byte) :
    executeFault i (s.setFl v) = executeFault i s := rfl

/-- Of the normal outcomes only CMP's writes FL. -/
theorem Completes.fl_of_ne_cmp {i : Instr} {s t : State} (h : Completes s i t) (hi : ∀ ra rb, i ≠ .cmp ra rb) :
    t.fl = s.fl := by
  cases h with
  | cmp ra rb => exact absurd rfl (hi ra rb)
  | _ => simp

/-- A normal outcome with another FL: JEQ and JNE test bit 0 of it, and no other instruction looks at it. -/
theorem Completes.setFl {i : Instr} {s t : State} {v : Byte} (h : Completes s i t)
    (hE : (∃ r, i = .jeq r ∨ i = .jne r) → flagE v = flagE s.fl) :
    ∃ u, Completes (s.setFl v) i u ∧ u.setFl t.fl = t := by
  cases h with
  | jeq r j hr =>
    refine ⟨_, .jeq r j hr, ?_⟩
    rw [setFl_fl, hE ⟨r, .inl rfl⟩]
    rfl
  | jne r j hr =>
    refine ⟨_, .jne r j hr, ?_⟩
    rw [setFl_fl, hE ⟨r, .inr rfl⟩]
    rfl
  | _ => exact ⟨_, by constructor <;> assumption, rfl⟩

/-- Settles O27: a fault neither writes nor reads FL, and for a normal outcome `Completes.fl_of_ne_cmp` and
`Completes.setFl` say it. -/
theorem onlyCmpWritesFlags : Obligations.OnlyCmpWritesFlags := by
  constructor
  · intro i s t h hi
    obtain ⟨c, -, rfl⟩ | ⟨-, ht⟩ := exec_cases h
    · exact raise_fl ..
    · exact ht.fl_of_ne_cmp hi
  · intro i s t v h hE
    obtain ⟨c, hc, rfl⟩ | ⟨-, ht⟩ := exec_cases h
    · have hc' : executeFault i (s.setFl v) = some c := by rw [executeFault_setFl, hc]
      exact ⟨_, exec_of_executeFault_some hc', rfl⟩
    · obtain ⟨u, hu, hut⟩ := ht.setFl hE
      exact ⟨u, exec_of_completes hu, hut⟩

/-! ### The output port -/

/-- No check reads the output. -/
theorem executeFault_withOut (i : Instr) (s : State) (out : List Byte) :
    executeFault i { s with out := out } = executeFault i s := rfl

/-- Of the normal outcomes only PRN's appends to the output. -/
theorem Completes.out_of_ne_prn {i : Instr} {s t : State} (h : Completes s i t) (hi : ∀ r, i ≠ .prn r) :
    t.out = s.out := by
  cases h with
  | prn r => exact absurd rfl (hi r)
  | _ => simp

/-- A normal outcome that emits nothing is the same with any other output. -/
theorem Completes.withOut {i : Instr} {s t : State} (h : Completes s i t) (hi : ∀ r, i ≠ .prn r) (out : List Byte) :
    Completes { s with out := out } i { t with out := out } := by
  cases h with
  | prn r => exact absurd rfl (hi r)
  | _ => constructor <;> assumption

/-- Settles O28: PRN's normal outcome emits the register it names; a fault and every other normal outcome emit nothing. -/
theorem onlyPrnAppendsOutput : Obligations.OnlyPrnAppendsOutput := by
  intro i s t h
  obtain ⟨c, hc, rfl⟩ | ⟨-, ht⟩ := exec_cases h
  · refine ⟨[], by simp, Nat.zero_le 1, absurd rfl, fun out => ?_⟩
    rw [List.append_nil]
    exact exec_of_executeFault_some ((executeFault_withOut ..).trans hc)
  · by_cases hprn : ∃ r, i = .prn r
    · obtain ⟨r, rfl⟩ := hprn
      cases ht with
      | prn _ j hr =>
        exact ⟨[s.reg j], rfl, le_rfl, fun _ => ⟨r, rfl⟩, fun _ => exec_of_completes (.prn r j hr)⟩
    · have hi : ∀ r, i ≠ .prn r := not_exists.1 hprn
      refine ⟨[], by simp [ht.out_of_ne_prn hi], Nat.zero_le 1, absurd rfl, fun out => ?_⟩
      rw [List.append_nil]
      exact exec_of_completes (ht.withOut hi out)

/-! ### Reset -/

/-- Settles O48: the register file by its eight values, memory because every cell is unwritten. -/
theorem resetValues : Obligations.ResetValues := by
  have hregs : ∀ i : Fin 8, i ≠ 7 → State.reset.reg i = 0x00 := by decide
  have hmem : ∀ a, State.reset.byteAt a = 0x00 := fun _ => rfl
  exact ⟨hregs, rfl, rfl, rfl, rfl, rfl, hmem, applyReset_mem⟩

end Sys2Proof.Machine
end

section
/-! The memory interface (20_memory.md R43), the loaded image (R46), and which faults are the stack's (R56). -/

namespace Sys2Proof.Machine

/-! ### The memory interface -/

/-- Reading back a byte that was just written (20_memory.md R43). -/
theorem memRead_setByte_same {a : Nat} (s : State) (v : Byte) (h : a < 256) : memRead a (s.setByte a v) = .ok v := by
  rw [memRead_of_lt _ h, setByte_byteAt, if_pos rfl]

/-- A write changes no read of another address, be that address in memory or outside it. -/
theorem memRead_setByte_of_ne {a b : Nat} (s : State) (v : Byte) (h : b ≠ a) :
    memRead b (s.setByte a v) = memRead b s := by
  rcases Nat.lt_or_ge b 256 with hb | hb
  · rw [memRead_of_lt _ hb, memRead_of_lt _ hb, setByte_byteAt, if_neg h]
  · rw [memRead_of_le _ hb, memRead_of_le _ hb]

/-- Settles O20: outside memory both accesses raise; inside, MemWrite answers `setByte`, which changes that one cell. -/
theorem memoryInterfaceChecksBounds : Obligations.MemoryInterfaceChecksBounds := by
  refine fun s a v => ⟨fun h => ⟨memRead_of_le s h, memWrite_of_le v s h⟩, fun h => ⟨memRead_of_lt s h, ?_⟩⟩
  exact ⟨s.setByte a v, memWrite_of_lt v s h, memRead_setByte_same s v h, fun _ => memRead_setByte_of_ne s v, rfl⟩

/-! ### Loading an image -/

/-- The state a run of an image starts from: memory as the loader leaves it, everything else as at reset. -/
abbrev loadedState (image : List Byte) : State := { State.reset with mem := Memory.load [] 0 image }

theorem loadImage_of_le {image : List Byte} (h : image.length ≤ 256) :
    loadImage image = .next (loadedState image) := if_neg (Nat.not_lt.2 h)

theorem loadImage_of_lt {image : List Byte} (h : 256 < image.length) :
    loadImage image = .refused (.imageTooLong image.length) := if_pos h

theorem loadedState_byteAt_of_lt {image : List Byte} {a : Nat} (hlen : image.length ≤ 256) (h : a < image.length) :
    (loadedState image).byteAt a = image[a] :=
  have hin : 0 ≤ a ∧ a - 0 < image.length ∧ a < Config.memSize := ⟨a.zero_le, h, h.trans_le hlen⟩
  (Memory.load_get [] 0 image a).trans (dif_pos hin)

theorem loadedState_byteAt_of_le {image : List Byte} {a : Nat} (h : image.length ≤ a) :
    (loadedState image).byteAt a = 0x00 :=
  have hout : ¬ (0 ≤ a ∧ a - 0 < image.length ∧ a < Config.memSize) := fun ⟨_, hlt, _⟩ => Nat.not_lt.2 h hlt
  (Memory.load_get [] 0 image a).trans (dif_neg hout)

/-- The reset port establishes the invariant from any canonical memory: it sets every other field itself
(70_reset_and_hazards.md R127). -/
theorem inv_applyReset {s : State} (h : s.mem.wf = true) : Inv s.applyReset where
  memory := h
  flags := .inl rfl
  pc := Nat.zero_le 256
  status := trivial

theorem inv_loadedState (image : List Byte) : Inv (loadedState image) :=
  inv_applyReset (s := loadedState image) (Memory.load_wf 0 image rfl)

/-- Settles O50: the loader starts the run in `loadedState`, whose memory `Memory.load_get` reads cell by cell and
`Memory.load_wf` shows canonical. -/
theorem loadedImageStartsRun : Obligations.LoadedImageStartsRun := by
  refine fun image => ⟨fun hlen => ?_, loadImage_of_lt⟩
  exact ⟨loadedState image, loadImage_of_le hlen, fun _ => loadedState_byteAt_of_lt hlen,
    fun _ => loadedState_byteAt_of_le, rfl, rfl, inv_loadedState image⟩

/-! ### Which faults are the stack's -/

/-- The register check raises nothing but an access outside the register file. -/
theorem firstIllegalField_eq_some {fs : List Byte} {c : FaultCause} (h : firstIllegalField fs = some c) :
    ∃ n, c = .outOfBoundsAccess .register n := by
  induction fs with
  | nil => contradiction
  | cons f fs ih =>
    rw [firstIllegalField] at h
    split at h
    · exact ⟨f.toNat, (Option.some.inj h).symm⟩
    · exact ih h

theorem pushFault_eq_some {s : State} {c : FaultCause} (h : pushFault s = some c) : c = .stackOverflow s.sp := by
  rcases push_cases s with ⟨-, -, hn⟩ | ⟨hf, -⟩
  · rw [hn] at h; contradiction
  · exact Option.some.inj (h.symm.trans hf)

theorem popFault_eq_some {s : State} {c : FaultCause} (h : popFault s = some c) : c = .stackUnderflow s.sp := by
  rcases pop_cases s with ⟨-, hn⟩ | ⟨hf, -⟩
  · rw [hn] at h; contradiction
  · exact Option.some.inj (h.symm.trans hf)

/-- What an instruction's own checks can raise: a stack fault for the SP it finds, or CALL's return address that is no
byte; and only the four stack instructions have such checks (60_exceptions.md R115, point 5). -/
theorem ownFault_cases {i : Instr} {s : State} {c : FaultCause} (h : ownFault i s = some c) :
    isStackInstruction i = true ∧
      (c = .stackOverflow s.sp ∨ c = .stackUnderflow s.sp ∨ c = .outOfBoundsAccess .memory (s.pc + 2)) := by
  cases i with
  | push r => exact ⟨rfl, .inl (pushFault_eq_some h)⟩
  | pop r => exact ⟨rfl, .inr (.inl (popFault_eq_some h))⟩
  | ret => exact ⟨rfl, .inr (.inl (popFault_eq_some h))⟩
  | call r =>
    rcases Option.or_eq_some_iff.1 h with hp | ⟨-, ha⟩
    · exact ⟨rfl, .inl (pushFault_eq_some hp)⟩
    · obtain ⟨-, hret⟩ := Option.ite_none_right_eq_some.1 ha
      exact ⟨rfl, .inr (.inr (Option.some.inj hret).symm)⟩
  | _ => contradiction

/-- An execution that raises a stack fault is a stack instruction's, for the SP found on entry. -/
theorem executeFault_of_stackFault {i : Instr} {s : State} {c : FaultCause} {v : Byte} (h : executeFault i s = some c)
    (hc : c = .stackOverflow v ∨ c = .stackUnderflow v) : isStackInstruction i = true ∧ v = s.sp := by
  rcases Option.or_eq_some_iff.1 h with hf | ⟨-, ho⟩
  · obtain ⟨n, rfl⟩ := firstIllegalField_eq_some hf
    simp at hc
  · obtain ⟨hi, rfl | rfl | rfl⟩ := ownFault_cases ho
    · exact ⟨hi, by simpa [eq_comm] using hc⟩
    · exact ⟨hi, by simpa [eq_comm] using hc⟩
    · simp at hc

/-- A normal outcome of a Running state is not Faulted. -/
theorem Completes.status_ne_faulted {i : Instr} {s t : State} (h : Completes s i t) (hs : s.status = .running)
    (f : FaultRecord) : t.status ≠ .faulted f := by
  by_cases hi : i = .hlt
  · subst hi; rw [h.status_of_hlt]; exact nofun
  · rw [h.status_of_ne_hlt hi, hs]; exact nofun

/-- Settles O22: a Faulted outcome is fault entry for the cause `executeFault` gives, and of its two parts only the
instruction's own checks give a stack fault. -/
theorem onlyStackInstructionsCheckTheStack : Obligations.OnlyStackInstructionsCheckTheStack := by
  intro i s t f v hs h hf hcause
  obtain ⟨c, hc, rfl⟩ | ⟨-, ht⟩ := exec_cases h
  · rw [raise_status] at hf
    obtain rfl := Status.faulted.inj hf
    exact executeFault_of_stackFault hc hcause
  · exact absurd hf (ht.status_ne_faulted hs f)

end Sys2Proof.Machine
end

section
/-! The shape of an encoding and what a successful decoding says (30_encoding.md R63), the bytes that are no opcode and the
fault they raise (R69). -/

namespace Sys2Proof.Laws.EncodedShape

/-- The per-instruction statements of this namespace, as one law of all instructions. -/
theorem every : ∀ i : Instr, Statement i
  | .hlt => hlt
  | .ret => ret
  | .push r => push r
  | .pop r => pop r
  | .prn r => prn r
  | .call r => call r
  | .jmp r => jmp r
  | .jeq r => jeq r
  | .jne r => jne r
  | .ldi r imm => ldi r imm
  | .add ra rb => add ra rb
  | .mul ra rb => mul ra rb
  | .cmp ra rb => cmp ra rb
  | .and ra rb => and ra rb
  | .or ra rb => or ra rb
  | .xor ra rb => xor ra rb

end Sys2Proof.Laws.EncodedShape

namespace Sys2Proof

/-! ### Lengths -/

theorem encode_length (i : Instr) : (encode i).length = i.width :=
  have ⟨hlength, _⟩ := Laws.EncodedShape.every i
  hlength

/-- Operand bytes that decode are taken to the number the format has, and the instruction is the mnemonic's. -/
theorem decodeOperands_eq_ok {m : Mnemonic} {bs rest : List Byte} {i : Instr}
    (h : decodeOperands m bs = .ok (i, rest)) :
    i.mnemonic = m ∧ bs.length = m.format.operandCount + rest.length := by
  obtain ⟨hn, hd⟩ | ⟨b1, tl, hn, rfl, hd⟩ | ⟨b1, b2, tl, hn, rfl, hd⟩ | ⟨-, hd⟩ := decodeOperands_cases m bs
  case inr.inr.inr => rw [hd] at h; contradiction
  all_goals
    obtain ⟨rfl, rfl⟩ := Prod.mk.inj (Except.ok.inj (hd.symm.trans h))
    refine ⟨Mnemonic.instr_mnemonic .., ?_⟩
    simp only [hn, List.length_cons]
    omega

/-- A list that decodes begins with the opcode of its instruction, and as many bytes as that instruction is wide are
consumed. -/
theorem decode_eq_ok {op : Byte} {bs rest : List Byte} {i : Instr} (h : decode (op :: bs) = .ok (i, rest)) :
    lookupOpcode op = some i.mnemonic ∧ (op :: bs).length = i.width + rest.length := by
  cases hl : lookupOpcode op with
  | none => rw [decode_unknown hl] at h; contradiction
  | some m =>
    rw [decode_known hl] at h
    obtain ⟨rfl, hlength⟩ := decodeOperands_eq_ok h
    refine ⟨rfl, ?_⟩
    rw [List.length_cons, hlength, Instr.width, width_eq]
    omega

/-- Settles O32: both decodings look up the same opcode byte, so by `decode_eq_ok` they give one mnemonic, and the width is
the mnemonic's. -/
theorem opcodeAloneFixesLength : Obligations.OpcodeAloneFixesLength := by
  refine ⟨fun i => ⟨encode_length i, width_bounds i.mnemonic⟩, fun op bs bs' rest rest' i i' h h' => ?_⟩
  obtain ⟨hop, hlength⟩ := decode_eq_ok h
  obtain ⟨hop', hlength'⟩ := decode_eq_ok h'
  have hm : i.mnemonic = i'.mnemonic := Option.some.inj (hop.symm.trans hop')
  have hw : i.width = i'.width := congrArg Mnemonic.width hm
  exact ⟨hm, hw, hlength, hw ▸ hlength'⟩

/-! ### The bytes that are no opcode -/

theorem mem_opcodeRows (m : Mnemonic) : m ∈ opcodeRows := List.mem_of_find?_eq_some (lookupOpcode_opcode m)

/-- A byte is known exactly when it stands in the opcode map. -/
theorem lookupOpcode_ne_none {op : Byte} : lookupOpcode op ≠ none ↔ ∃ m : Mnemonic, m.opcode = op := by
  simp [lookupOpcode_eq_none]

/-- The known bytes are the opcodes of the sixteen rows, in whatever order. -/
theorem knownBytes_perm :
    ((List.range 256).filter fun n => ¬ lookupOpcode (BitVec.ofNat 8 n) = none).Perm
      (opcodeRows.map fun m => m.opcode.toNat) := by
  have hdistinct : (opcodeRows.map fun m => m.opcode.toNat).Nodup := by decide
  refine (List.perm_ext_iff_of_nodup (List.nodup_range.filter _) hdistinct).2 fun n => ?_
  simp only [List.mem_filter, List.mem_range, decide_eq_true_eq, ← ne_eq, lookupOpcode_ne_none, List.mem_map,
    mem_opcodeRows, true_and]
  constructor
  · rintro ⟨hn, m, hm⟩
    exact ⟨m, by rw [hm, BitVec.toNat_ofNat, Nat.mod_eq_of_lt hn]⟩
  · rintro ⟨m, rfl⟩
    exact ⟨m.opcode.isLt, m, by simp⟩

/-- 256 bytes less the sixteen of the opcode map are unknown. -/
theorem unknownBytes_length :
    ((List.range 256).filter fun n => lookupOpcode (BitVec.ofNat 8 n) = none).length = 240 := by
  have hknown : ((List.range 256).filter fun n => ¬ lookupOpcode (BitVec.ofNat 8 n) = none).length = 16 :=
    knownBytes_perm.length_eq
  have hall := List.length_eq_length_filter_add (l := List.range 256)
    fun n => lookupOpcode (BitVec.ofNat 8 n) = none
  rw [List.length_range] at hall
  simp only [decide_not] at hknown
  omega

end Sys2Proof

namespace Sys2Proof.Machine

/-- A fault of the fetch is taken in the step that makes it (60_exceptions.md R114). -/
theorem step_of_fetch_error {s : State} {e : FetchFault} (hs : s.status = .running) (hf : fetch s = .error e) :
    step s = .next (afterFault e.cause e.opcode s) := by
  rw [step_running hs, hf, ← raise_eq_afterFault]

/-- Settles O37: the fetch of a byte that no mnemonic has as its opcode faults with that byte. -/
theorem unknownOpcodeRaises : Obligations.UnknownOpcodeRaises := by
  refine ⟨fun s hs hpc hop => ?_, unknownBytes_length, lookupOpcode_eq_none.1 (by decide)⟩
  exact step_of_fetch_error hs (fetch_unknown hpc (lookupOpcode_eq_none.2 hop))

end Sys2Proof.Machine
end

section
/-! The engine (40_execution_engine.md): stopped states (R76), operand fetch (R78) and the run loop (R83). -/

namespace Sys2Proof.Machine

/-! ### Stopped states -/

/-- Settles O39: the laws of `step`, `stepTimes` and `run` from a stopped state, side by side. -/
theorem terminalStatusIsSticky : Obligations.TerminalStatusIsSticky :=
  fun _ h => ⟨step_stopped h, fun n => ⟨stepTimes_stopped h n, run_stopped h n⟩⟩

/-! ### Operand fetch -/

/-- Of its two byte arguments an instruction uses only those its width has room for. -/
theorem instr_congr_of_width {m : Mnemonic} {b1 b2 c1 c2 : Byte} (h1 : 2 ≤ m.width → b1 = c1)
    (h2 : m.width = 3 → b2 = c2) : m.instr b1 b2 = m.instr c1 c2 := by
  cases m with
  | hlt | ret => rfl
  | push | pop | prn | call | jmp | jeq | jne => rw [h1 (by decide)]; rfl
  | ldi | add | mul | cmp | and | or | xor => rw [h1 (by decide), h2 rfl]

/-- The fetch depends on no byte beyond the instruction's own. -/
theorem fetch_withMem {s : State} {m : Mnemonic} {mem : Memory} (hl : lookupOpcode (s.byteAt s.pc) = some m)
    (hw : s.pc + m.width ≤ 256) (hmem : ∀ k, k < m.width → mem.get (s.pc + k) = s.byteAt (s.pc + k)) :
    fetch { s with mem := mem } = fetch s := by
  have ⟨hwidth, _⟩ := width_bounds m
  have hl' : lookupOpcode (mem.get s.pc) = some m := (congrArg lookupOpcode (hmem 0 hwidth)).trans hl
  calc fetch { s with mem := mem }
    _ = .ok (m.instr (mem.get (s.pc + 1)) (mem.get (s.pc + 2))) := fetch_ok (s := { s with mem := mem }) hl' hw
    _ = .ok (m.instr (s.byteAt (s.pc + 1)) (s.byteAt (s.pc + 2))) :=
      congrArg _ (instr_congr_of_width (fun h => hmem 1 h) (fun h => hmem 2 (by omega)))
    _ = fetch s := (fetch_ok hl hw).symm

/-- A step at an instruction that memory cuts off raises for `a`, the first address with no cell. -/
theorem step_cut {s : State} {m : Mnemonic} {a : Nat} (hs : s.status = .running) (hpc : s.pc < 256)
    (hop : s.byteAt s.pc = m.opcode) (hw : 256 < s.pc + m.width) (ha : max (s.pc + 1) 256 = a) :
    step s = .next (afterFault (.outOfBoundsAccess .memory a) (some m.opcode) s) := by
  rw [← ha, ← hop]
  exact step_of_fetch_error hs (fetch_cut hpc (by rw [hop, lookupOpcode_opcode]) hw)

/-- Settles O36: the opcode byte gives the mnemonic, so an instruction that fits is `fetch_ok`'s, and one that does not is
cut off at its first operand byte (pc = 255) or at its second (pc = 254). -/
theorem operandFetchReadsExactBytes : Obligations.OperandFetchReadsExactBytes := by
  intro s m hs hpc hop
  have hl : lookupOpcode (s.byteAt s.pc) = some m := by rw [hop, lookupOpcode_opcode]
  refine ⟨fun hw => ⟨fetch_ok hl hw, fun _ => fetch_withMem hl hw⟩, fun h2 h256 => ?_, fun h3 hfirst h256 => ?_⟩
  · exact step_cut hs hpc hop (by omega) (by omega)
  · exact step_cut hs hpc hop (by omega) (by omega)

/-! ### The run loop -/

theorem exec_next (i : Instr) (s : State) : ∃ t, exec i s = .next t := by
  rcases raises_or_normal i s with ⟨_, -, he⟩ | ⟨-, t, ht⟩
  · exact ⟨_, he⟩
  · exact ⟨t, exec_of_completes ht⟩

/-- A fetched instruction is executed in the step that fetches it (40_execution_engine.md R77). -/
theorem step_of_fetch_ok {s : State} {i : Instr} (hs : s.status = .running) (hf : fetch s = .ok i) :
    step s = exec i s := by
  rw [step_running hs, hf]

theorem step_next (s : State) : ∃ t, step s = .next t := by
  by_cases hs : s.status = .running
  · cases hf : fetch s with
    | ok i => rw [step_of_fetch_ok hs hf]; exact exec_next i s
    | error e => exact ⟨_, step_of_fetch_error hs hf⟩
  · exact ⟨s, step_stopped hs⟩

theorem runResult_eq_outOfBudget {t : State} : runResult t = .outOfBudget ↔ t.status = .running := by
  cases ht : t.status <;> simp [runResult, ht]

theorem runResult_eq_halted {t : State} : runResult t = .halted ↔ t.status = .halted := by
  cases ht : t.status <;> simp [runResult, ht]

theorem runResult_eq_faulted {t : State} {f : FaultRecord} : runResult t = .faulted f ↔ t.status = .faulted f := by
  cases ht : t.status <;> simp [runResult, ht]

/-- What the loop of 40_execution_engine.md R83 promises of a run that takes `n` steps and leaves `t`. -/
structure RunEnds (budget : Nat) (s : State) (n : Nat) (t : State) : Prop where
  within : n ≤ budget
  steps : stepTimes n s = .next t
  result : run budget s = .next (runResult t, t)
  running : ∀ k, k < n → ∃ u : State, stepTimes k s = .next u ∧ u.status = .running
  early : n < budget → t.status ≠ .running

theorem runEnds_zero (s : State) : RunEnds 0 s 0 s where
  within := le_rfl
  steps := rfl
  result := rfl
  running := nofun
  early := nofun

theorem runEnds_stopped {s : State} (h : s.status ≠ .running) (budget : Nat) : RunEnds budget s 0 s where
  within := budget.zero_le
  steps := rfl
  result := run_stopped h budget
  running := nofun
  early _ := h

/-- One turn of the loop before a run that ends in `u`. -/
theorem RunEnds.succ {budget n : Nat} {s t u : State} (h : RunEnds budget t n u) (hs : s.status = .running)
    (hst : step s = .next t) : RunEnds (budget + 1) s (n + 1) u where
  within := Nat.succ_le_succ h.within
  steps := (stepTimes_succ hst n).trans h.steps
  result := (run_succ hs hst budget).trans h.result
  running
    | 0, _ => ⟨s, rfl, hs⟩
    | k + 1, hk => by rw [stepTimes_succ hst]; exact h.running k (Nat.lt_of_succ_lt_succ hk)
  early hlt := h.early (Nat.lt_of_succ_lt_succ hlt)

/-- Every run ends within its budget, by induction on the budget. -/
theorem exists_runEnds (budget : Nat) (s : State) : ∃ n t, RunEnds budget s n t := by
  induction budget generalizing s with
  | zero => exact ⟨0, s, runEnds_zero s⟩
  | succ budget ih =>
    by_cases hs : s.status = .running
    · obtain ⟨t, hst⟩ := step_next s
      obtain ⟨n, u, hu⟩ := ih t
      exact ⟨n + 1, u, hu.succ hs hst⟩
    · exact ⟨0, s, runEnds_stopped hs (budget + 1)⟩

/-- A longer run is the later run from where the shorter one stopped: the shorter one's turns come first, and once it is
stopped neither takes another. -/
theorem run_add {m n : Nat} {s t : State} {res : RunResult} (h : run m s = .next (res, t)) :
    run (m + n) s = run n t := by
  induction m generalizing s with
  | zero =>
    obtain ⟨-, rfl⟩ := Prod.mk.inj (Host.Outcome.next.inj h)
    rw [Nat.zero_add]
  | succ m ih =>
    by_cases hs : s.status = .running
    · obtain ⟨u, hst⟩ := step_next s
      rw [run_succ hs hst] at h
      rw [Nat.add_right_comm, run_succ hs hst, ih h]
    · rw [run_stopped hs] at h
      obtain ⟨-, rfl⟩ := Prod.mk.inj (Host.Outcome.next.inj h)
      rw [run_stopped hs, run_stopped hs]

/-- Settles O41: the loop by `exists_runEnds`, the result read off the status, and resumption by `run_add`. -/
theorem runStepsWithinBudget : Obligations.RunStepsWithinBudget := by
  refine ⟨fun budget s => ?_, fun t => ?_, fun _ _ _ _ _ => run_add⟩
  · obtain ⟨n, t, h⟩ := exists_runEnds budget s
    exact ⟨n, t, h.within, h.steps, h.result, h.running, h.early⟩
  · exact ⟨runResult_eq_outOfBudget, runResult_eq_halted, fun _ => runResult_eq_faulted⟩

end Sys2Proof.Machine
end

section
/-! Data movement (41_data_movement.md): LDI, PRN, PUSH and POP. Before them, what the statements of other
families can share: the decoder reads an encoding back, the frame of each state operation, and the fault of an
instruction whose one register field is legal. -/

namespace Sys2Proof

/-- The decoder reads an encoding back and leaves the bytes after it (30_encoding.md R62, R63). -/
theorem decode_encode_append (i : Instr) (rest : List Byte) : decode (encode i ++ rest) = .ok (i, rest) := by
  rw [encode, List.cons_append, decode_known (lookupOpcode_opcode i.mnemonic)]
  cases i <;> rfl

end Sys2Proof

namespace Sys2Proof.Machine

/-! ### The frame of each state operation -/

theorem OnlyWrites.refl (regs : List (Fin Config.numRegs)) (cells : List Nat) (s : State) : OnlyWrites regs cells s s :=
  ⟨fun _ _ => rfl, fun _ _ => rfl, rfl, rfl, rfl⟩

section Frames
variable {regs : List (Fin Config.numRegs)} {cells : List Nat} {s t : State}

theorem OnlyWrites.setReg {i : Fin Config.numRegs} (h : OnlyWrites regs cells s t) (hi : i ∈ regs) (v : Byte) :
    OnlyWrites regs cells s (t.setReg i v) := by
  obtain ⟨hregs, hrest⟩ := h
  refine ⟨fun j hj => ?_, hrest⟩
  have hne : j ≠ i := fun heq => hj (heq ▸ hi)
  rw [setReg_reg, if_neg hne, hregs j hj]

/-- Writing SP is writing R7 (10_state.md R22). -/
theorem OnlyWrites.setSp (h : OnlyWrites regs cells s t) (h7 : 7 ∈ regs) (v : Byte) :
    OnlyWrites regs cells s (t.setSp v) := h.setReg h7 v

theorem OnlyWrites.setByte {a : Nat} (h : OnlyWrites regs cells s t) (ha : a ∈ cells) (v : Byte) :
    OnlyWrites regs cells s (t.setByte a v) := by
  obtain ⟨hregs, hmem, hrest⟩ := h
  refine ⟨hregs, fun b hb => ?_, hrest⟩
  have hne : b ≠ a := fun heq => hb (heq ▸ ha)
  rw [setByte_byteAt, if_neg hne, hmem b hb]

theorem OnlyWrites.setPc (h : OnlyWrites regs cells s t) (n : Nat) : OnlyWrites regs cells s (t.setPc n) := h

theorem OnlyWrites.advance (h : OnlyWrites regs cells s t) (w : Nat) : OnlyWrites regs cells s (t.advance w) :=
  h.setPc (t.pc + w)

end Frames

/-! ### Faults -/

/-- With its one register field legal, an instruction can fault only in its own checks (60_exceptions.md R115,
point 5). -/
theorem executeFault_of_legal {i : Instr} {r : Byte} {k : Fin 8} (s : State) (hf : i.regFields = [r])
    (hr : r.toNat = k.val) : executeFault i s = ownFault i s := by
  rw [executeFault, hf, firstIllegalField_one_legal hr, Option.none_or]

theorem pushFault_of_overflow {s : State} (h : s.sp.toNat = 0 ∨ 0xF4 < s.sp.toNat - 1) :
    pushFault s = some (.stackOverflow s.sp) := if_pos h

theorem popFault_of_underflow {s : State} (h : 0xF4 ≤ s.sp.toNat) : popFault s = some (.stackUnderflow s.sp) :=
  if_pos h

/-- Raising SP by one does not wrap where a byte may be popped. -/
theorem sp_add_one_toNat {s : State} (h : s.sp.toNat < 0xF4) : (s.sp + 1).toNat = s.sp.toNat + 1 := by
  bv_omega

/-! ### The four instructions -/

/-- Settles O3: an SP that may not move down is `pushFault`'s cause; from any other the normal outcome writes the new SP,
then the cell at it, and the register is read between the two, so R7 gives the new SP. -/
theorem pushStoresBelowStackPointer : Obligations.PushStoresBelowStackPointer := by
  refine ⟨fun r rest => ⟨decode_encode_append (.push r) rest, rfl⟩, fun s r i hr => ?_⟩
  refine ⟨fun hsp => ?_, fun h0 h1 => ?_⟩
  · exact exec_of_executeFault_some ((executeFault_of_legal s rfl hr).trans (pushFault_of_overflow hsp))
  · refine ⟨s.sp.toNat - 1, afterPushSlot s, _, pushSlot_ok h0 h1, rfl, exec_of_completes (.push r i hr h0 h1), ?sp,
      ?cell, rfl, ?frame⟩
    case sp => simp
    case cell => simp
    case frame =>
      exact (((OnlyWrites.refl ..).setSp (List.mem_singleton_self 7) _).setByte (List.mem_singleton_self _) _).advance 2

/-- Settles O4: an SP at the top or above is `popFault`'s cause; from any other the normal outcome writes the popped
byte first and then raises SP as that write left it, which for R7 is the popped byte. -/
theorem popLoadsTopOfStack : Obligations.PopLoadsTopOfStack := by
  refine ⟨fun r rest => ⟨decode_encode_append (.pop r) rest, rfl⟩, fun s r i hr => ?_⟩
  refine ⟨fun hsp => ?_, fun hsp => ?_⟩
  · exact exec_of_executeFault_some ((executeFault_of_legal s rfl hr).trans (popFault_of_underflow hsp))
  · refine ⟨_, exec_of_completes (.pop r i hr hsp), fun hi => ⟨?value, ?sp⟩, fun hi => ?r7, rfl, ?frame⟩
    case value => simp [hi]
    case sp => simp only [advance_reg, setSp_reg, if_true, setReg_sp, if_neg hi.symm, sp_add_one_toNat hsp]
    case r7 =>
      subst hi
      simp
    case frame =>
      exact (((OnlyWrites.refl ..).setReg (by simp) _).setSp (by simp) _).advance 2

/-- Settles O1: LDI's normal outcome, in which only the named register is written. -/
theorem ldiLoadsImmediate : Obligations.LdiLoadsImmediate := by
  refine ⟨fun r imm rest => ⟨decode_encode_append (.ldi r imm) rest, rfl⟩, fun s r imm i hr => ?_⟩
  refine ⟨_, exec_of_completes (.ldi r imm i hr), ?value, rfl, ?frame⟩
  case value => simp
  case frame => exact ((OnlyWrites.refl ..).setReg (List.mem_singleton_self i) imm).advance 3

/-- Settles O2: PRN's normal outcome, whose emit and advance leave every other field as it was. -/
theorem prnEmitsRegister : Obligations.PrnEmitsRegister := by
  refine ⟨fun r rest => ⟨decode_encode_append (.prn r) rest, rfl⟩, fun s r i hr => ?_⟩
  exact ⟨_, exec_of_completes (.prn r i hr), rfl, rfl, fun _ _ => rfl, fun _ _ => rfl, rfl, rfl⟩

end Sys2Proof.Machine
end

section
/-! Control flow (42_control_flow.md): CALL, RET, JMP, JEQ, JNE and HLT. Before them, the stack check of a CALL that may
push, its return address that is no byte, and the fault of an instruction whose one register field is illegal. -/

namespace Sys2Proof.Machine

/-! ### Faults -/

theorem pushFault_of_room {s : State} (h0 : 0 < s.sp.toNat) (h1 : s.sp.toNat - 1 ≤ 0xF4) : pushFault s = none :=
  if_neg (by omega)

/-- CALL's stack check comes before the check of its return address (60_exceptions.md R115, point 5). -/
theorem ownFault_call_of_overflow {s : State} (r : Byte) (h : s.sp.toNat = 0 ∨ 0xF4 < s.sp.toNat - 1) :
    ownFault (.call r) s = some (.stackOverflow s.sp) := by
  rw [ownFault, pushFault_of_overflow h, Option.some_or]

/-- Once a slot can be taken, CALL faults on a return address that is no byte (60_exceptions.md R115, point 5). -/
theorem ownFault_call_of_room {s : State} (r : Byte) (h0 : 0 < s.sp.toNat) (h1 : s.sp.toNat - 1 ≤ 0xF4)
    (hpc : 255 < s.pc + 2) : ownFault (.call r) s = some (.outOfBoundsAccess .memory (s.pc + 2)) := by
  rw [ownFault, pushFault_of_room h0 h1, Option.none_or, if_pos hpc]

/-- With its one register field illegal, an instruction raises, whatever it would have done
(40_execution_engine.md R79). -/
theorem exec_of_illegal {i : Instr} {r : Byte} (s : State) (hf : i.regFields = [r]) (hr : 8 ≤ r.toNat) :
    exec i s = .next (afterFault (.outOfBoundsAccess .register r.toNat) (some i.mnemonic.opcode) s) := by
  have hfirst : firstIllegalField i.regFields = some (.outOfBoundsAccess .register r.toNat) := by
    rw [hf, firstIllegalField_one_illegal hr]
  exact exec_of_executeFault_some (executeFault_of_firstIllegalField s hfirst)

/-! ### The stack's two: CALL and RET -/

/-- Lowering SP by one does not wrap where a byte may be pushed. -/
theorem sp_sub_one_toNat {s : State} (h : 0 < s.sp.toNat) : (s.sp - 1).toNat = s.sp.toNat - 1 := by
  bv_omega

/-- Settles O5: the two causes of `ownFault` in their order; with neither, the normal outcome writes the new SP, then the
return address at it, which fits a byte, and jumps to the register read between the two, so R7 gives the new SP. -/
theorem callPushesReturnAddressAndJumps : Obligations.CallPushesReturnAddressAndJumps := by
  refine ⟨fun r rest => ⟨decode_encode_append (.call r) rest, rfl⟩, fun s r i hr => ?_⟩
  have hlegal : executeFault (.call r) s = ownFault (.call r) s := executeFault_of_legal s rfl hr
  refine ⟨fun hsp => ?_, fun h0 h1 hpc => ?_, fun h0 h1 hpc => ?_⟩
  · exact exec_of_executeFault_some (hlegal.trans (ownFault_call_of_overflow r hsp))
  · exact exec_of_executeFault_some (hlegal.trans (ownFault_call_of_room r h0 h1 hpc))
  · refine ⟨s.sp.toNat - 1, afterPushSlot s, _, pushSlot_ok h0 h1, rfl, exec_of_completes (.call r i hr h0 h1 hpc), ?sp,
      ?cell, ?pc, ?frame⟩
    case sp => simp
    case cell =>
      have hfits : (s.pc + 2) % 2 ^ 8 = s.pc + 2 := Nat.mod_eq_of_lt (by omega)
      rw [setPc_byteAt, setByte_byteAt, if_pos rfl, BitVec.toNat_ofNat, hfits]
    case pc =>
      rw [setPc_pc, setSp_reg, apply_ite BitVec.toNat, sp_sub_one_toNat h0]
    case frame =>
      exact (((OnlyWrites.refl ..).setSp (List.mem_singleton_self 7) _).setByte (List.mem_singleton_self _) _).setPc _

/-- Settles O6: an SP at the top or above is `popFault`'s cause; from any other the normal outcome jumps to the popped byte
and raises SP by one. -/
theorem retPopsProgramCounter : Obligations.RetPopsProgramCounter := by
  refine ⟨fun rest => ⟨decode_encode_append .ret rest, rfl⟩, fun s => ⟨fun hsp => ?_, fun hsp => ?_⟩⟩
  · have hfault : executeFault .ret s = some (.stackUnderflow s.sp) := popFault_of_underflow hsp
    exact exec_of_executeFault_some hfault
  · refine ⟨_, exec_of_completes (.ret hsp), rfl, ?sp, ?frame⟩
    case sp => rw [setSp_reg, if_pos rfl, sp_add_one_toNat hsp]
    case frame => exact ((OnlyWrites.refl ..).setPc _).setSp (List.mem_singleton_self 7) _

/-! ### The jumps: JMP, JEQ and JNE -/

/-- Settles O7: JMP's normal outcome, which writes pc alone. -/
theorem jmpJumpsAlways : Obligations.JmpJumpsAlways := by
  refine ⟨fun r rest => ⟨decode_encode_append (.jmp r) rest, rfl⟩, fun s r i hr => ?_⟩
  exact ⟨_, exec_of_completes (.jmp r i hr), rfl, (OnlyWrites.refl ..).setPc _⟩

/-- Settles O8: JEQ's normal outcome writes pc alone, by bit 0 of FL; the register check comes before that choice. -/
theorem jeqJumpsWhenEqual : Obligations.JeqJumpsWhenEqual := by
  refine ⟨fun r rest => ⟨decode_encode_append (.jeq r) rest, rfl⟩, fun s r i hr => ?_, fun s r hr => ?_⟩
  · exact ⟨_, exec_of_completes (.jeq r i hr), fun hE => if_pos hE, fun hE => if_neg (Bool.eq_false_iff.1 hE),
      (OnlyWrites.refl ..).setPc _⟩
  · exact exec_of_illegal s rfl hr

/-- Settles O9: JNE's normal outcome writes pc alone, by bit 0 of FL, and JEQ's makes the opposite choice; the register
check comes before either. -/
theorem jneJumpsWhenNotEqual : Obligations.JneJumpsWhenNotEqual := by
  refine ⟨fun r rest => ⟨decode_encode_append (.jne r) rest, rfl⟩, fun s r i hr => ?_, fun s r hr => ?_⟩
  · refine ⟨_, _, exec_of_completes (.jne r i hr), fun hE => if_neg (Bool.eq_false_iff.1 hE), fun hE => if_pos hE,
      (OnlyWrites.refl ..).setPc _, exec_of_completes (.jeq r i hr), ?opposite⟩
    case opposite =>
      by_cases hE : flagE s.fl = true
      · exact .inr ⟨if_pos hE, if_pos hE⟩
      · exact .inl ⟨if_neg hE, if_neg hE⟩
  · exact exec_of_illegal s rfl hr

/-! ### HLT -/

/-- Settles O10: HLT's normal outcome is `State.halt`, a stopped state, which no step request changes and the reset port
leaves. -/
theorem hltHaltsInPlace : Obligations.HltHaltsInPlace := by
  refine ⟨fun rest => ⟨decode_encode_append .hlt rest, rfl⟩, fun s => ?_⟩
  have hstopped : s.halt.status ≠ .running := nofun
  exact ⟨exec_of_completes .hlt, stepTimes_stopped hstopped, applyReset_status s.halt⟩

end Sys2Proof.Machine
end

section
/-! The ALU (43_alu.md): CMP, ADD and MUL. Before them, the normal outcome of an instruction that writes one register and
moves on, and the flags of a compare from each of its three cases. -/

namespace Sys2Proof.Machine

/-! ### Writing one register and moving on -/

theorem setReg_advance_reg_same (s : State) (i : Fin Config.numRegs) (v : Byte) (w : Nat) :
    ((s.setReg i v).advance w).reg i = v := by
  rw [advance_reg, setReg_reg, if_pos rfl]

theorem onlyWrites_setReg_advance (s : State) (i : Fin Config.numRegs) (v : Byte) (w : Nat) :
    OnlyWrites [i] [] s ((s.setReg i v).advance w) :=
  ((OnlyWrites.refl ..).setReg (List.mem_singleton_self i) v).advance w

/-! ### The flags of a compare (43_alu.md R104) -/

theorem compareFlags_of_eq {a b : Byte} (h : a.toNat = b.toNat) : compareFlags a b = 0x01 := if_pos h

theorem compareFlags_of_gt {a b : Byte} (h : b.toNat < a.toNat) : compareFlags a b = 0x02 :=
  (if_neg h.ne').trans (if_pos h)

theorem compareFlags_of_lt {a b : Byte} (h : a.toNat < b.toNat) : compareFlags a b = 0x04 :=
  (if_neg h.ne).trans (if_neg h.asymm)

/-! ### The three instructions -/

/-- Settles O13: CMP's normal outcome writes the whole of FL and pc; the three cases of the compare give FL, and every other
field is the one found. -/
theorem cmpWritesWholeFlags : Obligations.CmpWritesWholeFlags := by
  refine ⟨fun ra rb rest => ⟨decode_encode_append (.cmp ra rb) rest, rfl⟩, fun s ra rb i j ha hb => ?_⟩
  exact ⟨_, exec_of_completes (.cmp ra rb i j ha hb), compareFlags_of_eq, compareFlags_of_gt, compareFlags_of_lt, rfl,
    fun _ _ => rfl, fun _ _ => rfl, rfl, rfl⟩

/-- Settles O11: ADD's normal outcome writes the byte sum, which is the sum modulo 256, over its first register. -/
theorem addWrapsModulo256 : Obligations.AddWrapsModulo256 := by
  refine ⟨fun ra rb rest => ⟨decode_encode_append (.add ra rb) rest, rfl⟩, fun s ra rb i j ha hb => ?_⟩
  refine ⟨_, exec_of_completes (.add ra rb i j ha hb), ?sum, rfl, onlyWrites_setReg_advance ..⟩
  case sum => rw [setReg_advance_reg_same, BitVec.toNat_add]

/-- Settles O12: MUL's normal outcome writes the byte product, which is the product modulo 256, over its first register. -/
theorem mulKeepsLowByteOfProduct : Obligations.MulKeepsLowByteOfProduct := by
  refine ⟨fun ra rb rest => ⟨decode_encode_append (.mul ra rb) rest, rfl⟩, fun s ra rb i j ha hb => ?_⟩
  refine ⟨_, exec_of_completes (.mul ra rb i j ha hb), ?product, rfl, onlyWrites_setReg_advance ..⟩
  case product => rw [setReg_advance_reg_same, BitVec.toNat_mul]

end Sys2Proof.Machine
end

section
/-! The bitwise instructions (44_bitwise.md): AND, OR and XOR. Each has the normal outcome of an instruction that writes one
register and moves on, so what is left to each is one bit of the byte it writes. -/

namespace Sys2Proof.Machine

/-- Settles O14: AND's normal outcome writes the bitwise and, of which a bit is the and of the two bits. -/
theorem andIsBitwise : Obligations.AndIsBitwise := by
  refine ⟨fun ra rb rest => ⟨decode_encode_append (.and ra rb) rest, rfl⟩, fun s ra rb i j ha hb => ?_⟩
  refine ⟨_, exec_of_completes (.and ra rb i j ha hb), fun k => ?bit, rfl, onlyWrites_setReg_advance ..⟩
  case bit => rw [setReg_advance_reg_same, BitVec.getLsbD_and, Bool.and_eq_true]

/-- Settles O15: OR's normal outcome writes the bitwise or, of which a bit is the or of the two bits. -/
theorem orIsBitwise : Obligations.OrIsBitwise := by
  refine ⟨fun ra rb rest => ⟨decode_encode_append (.or ra rb) rest, rfl⟩, fun s ra rb i j ha hb => ?_⟩
  refine ⟨_, exec_of_completes (.or ra rb i j ha hb), fun k => ?bit, rfl, onlyWrites_setReg_advance ..⟩
  case bit => rw [setReg_advance_reg_same, BitVec.getLsbD_or, Bool.or_eq_true]

/-- Settles O16: XOR's normal outcome writes the bitwise exclusive or, of which a bit is 1 where the two bits differ. -/
theorem xorIsBitwise : Obligations.XorIsBitwise := by
  refine ⟨fun ra rb rest => ⟨decode_encode_append (.xor ra rb) rest, rfl⟩, fun s ra rb i j ha hb => ?_⟩
  refine ⟨_, exec_of_completes (.xor ra rb i j ha hb), fun k => ?bit, rfl, onlyWrites_setReg_advance ..⟩
  case bit => rw [setReg_advance_reg_same, BitVec.getLsbD_xor, Bool.xor_iff_ne, Ne, Bool.eq_iff_iff]

end Sys2Proof.Machine
end

section
/-! Faults (60_exceptions.md): the fault a step reports is `firstFault`'s (R115), what its record holds (R113), and that
no step's ALU call errs (R117). `firstFault` is tied to the machine once, through the fetch: a fault of the fetch is the
first fault, and after a fetched instruction it is the execution's. -/

namespace Sys2Proof.Machine

/-! ### The first fault, by what the fetch comes to -/

/-- A fault of the fetch comes first (60_exceptions.md R115, points 1 to 3). -/
theorem firstFault_of_fetch_error {s : State} {e : FetchFault} (hf : fetch s = .error e) :
    firstFault s = some { cause := e.cause, pc := s.pc, opcode := e.opcode } := by
  rcases fetch_cases s with ⟨hpc, he⟩ | ⟨hpc, hl, he⟩ | ⟨m, hpc, hl, hw, he⟩ | ⟨m, -, -, -, he⟩
  case inr.inr.inr => rw [he] at hf; contradiction
  all_goals obtain rfl := Except.error.inj (he.symm.trans hf)
  case inl => rw [firstFault, if_pos hpc]
  case inr.inl => simp only [firstFault, if_neg (Nat.not_le.2 hpc), hl, Option.map_some]
  case inr.inr.inl =>
    have ⟨_, hwidth⟩ := width_bounds m
    simp only [firstFault, if_neg (Nat.not_le.2 hpc), hl]
    by_cases h1 : 256 ≤ s.pc + 1
    · rw [if_pos ⟨by omega, h1⟩, max_eq_left h1, Option.map_some]
    · have h2 : s.pc + 2 = max (s.pc + 1) 256 := by omega
      rw [if_neg (by omega), if_pos (by omega), h2, Option.map_some]

/-- With an instruction fetched, the first fault is the execution's (60_exceptions.md R115, points 4 and 5). -/
theorem firstFault_of_fetch_ok {s : State} {i : Instr} (hf : fetch s = .ok i) :
    firstFault s =
      (executeFault i s).map fun c => { cause := c, pc := s.pc, opcode := some i.mnemonic.opcode } := by
  rcases fetch_cases s with ⟨-, he⟩ | ⟨-, -, he⟩ | ⟨m, -, -, -, he⟩ | ⟨m, hpc, hl, hw, he⟩
  case inr.inr.inr =>
    obtain rfl := Except.ok.inj (he.symm.trans hf)
    simp only [firstFault, if_neg (Nat.not_le.2 hpc), hl]
    rw [if_neg (by omega), if_neg (by omega), Mnemonic.instr_mnemonic, opcode_of_lookup hl]
  all_goals rw [he] at hf; contradiction

/-! ### A step from Running -/

theorem step_of_firstFault_some {s : State} {f : FaultRecord} (hs : s.status = .running)
    (h : firstFault s = some f) : step s = .next { s with status := .faulted f } := by
  cases hf : fetch s with
  | error e =>
    obtain rfl := Option.some.inj ((firstFault_of_fetch_error hf).symm.trans h)
    exact step_of_fetch_error hs hf
  | ok i =>
    obtain ⟨c, hc, rfl⟩ := Option.map_eq_some_iff.1 ((firstFault_of_fetch_ok hf).symm.trans h)
    exact (step_of_fetch_ok hs hf).trans (exec_of_executeFault_some hc)

theorem step_of_firstFault_none {s : State} (hs : s.status = .running) (h : firstFault s = none) :
    ∃ i t, Completes s i t ∧ step s = .next t := by
  cases hf : fetch s with
  | error e => rw [firstFault_of_fetch_error hf] at h; contradiction
  | ok i =>
    obtain ⟨t, ht⟩ := completes_of_executeFault_none
      (Option.map_eq_none_iff.1 ((firstFault_of_fetch_ok hf).symm.trans h))
    exact ⟨i, t, ht, (step_of_fetch_ok hs hf).trans (exec_of_completes ht)⟩

/-- The inversion lemma of `step` for faults: a step that leaves Faulted is fault entry with the first fault. -/
theorem firstFault_of_step_faulted {s t : State} {f : FaultRecord} (hs : s.status = .running) (h : step s = .next t)
    (hf : t.status = .faulted f) : firstFault s = some f ∧ t = { s with status := .faulted f } := by
  cases hff : firstFault s with
  | some g =>
    obtain rfl := Host.Outcome.next.inj ((step_of_firstFault_some hs hff).symm.trans h)
    obtain rfl := Status.faulted.inj hf
    exact ⟨rfl, rfl⟩
  | none =>
    obtain ⟨i, u, hu, hstep⟩ := step_of_firstFault_none hs hff
    obtain rfl := Host.Outcome.next.inj (hstep.symm.trans h)
    exact absurd hf (hu.status_ne_faulted hs f)

theorem Completes.status_running_or_halted {i : Instr} {s t : State} (h : Completes s i t)
    (hs : s.status = .running) : t.status = .running ∨ t.status = .halted := by
  cases ht : t.status with
  | running => exact .inl rfl
  | halted => exact .inr rfl
  | faulted f => exact absurd ht (h.status_ne_faulted hs f)

/-- Settles O43: `firstFault` is the fetch's fault or else the execution's, which is what the step raises; without one the
fetched instruction has a normal outcome, and none of those is Faulted. -/
theorem stepReportsFirstFault : Obligations.StepReportsFirstFault := by
  refine fun s hs => ⟨fun f hf => step_of_firstFault_some hs hf, fun hn => ?_⟩
  obtain ⟨i, t, ht, hstep⟩ := step_of_firstFault_none hs hn
  exact ⟨t, hstep, ht.status_running_or_halted hs⟩

/-- Settles O44: the state left is fault entry's, and it is stopped. -/
theorem faultEntryChangesOnlyStatus : Obligations.FaultEntryChangesOnlyStatus := by
  intro s t f hs h hf
  obtain ⟨-, ht⟩ := firstFault_of_step_faulted hs h hf
  have hstop : t.status ≠ .running := by rw [hf]; exact nofun
  exact ⟨ht, stepTimes_stopped hstop⟩

/-! ### What the record of a first fault holds (60_exceptions.md R113) -/

theorem firstFault_place {s : State} {f : FaultRecord} (h : firstFault s = some f) :
    f.pc = s.pc ∧ f.opcode = opcodeAtPc s := by
  unfold firstFault at h
  split at h
  next hpc =>
    obtain rfl := Option.some.inj h
    exact ⟨rfl, (if_neg (Nat.not_lt.2 hpc)).symm⟩
  next hpc =>
    obtain ⟨c, -, rfl⟩ := Option.map_eq_some_iff.1 h
    exact ⟨rfl, (if_pos (Nat.not_le.1 hpc)).symm⟩

/-- Settles O45: the fields of each cause are read off it, the record's pc and opcode are `firstFault`'s, and a run of one
step returns what the status carries. -/
theorem faultRecordFields : Obligations.FaultRecordFields := by
  constructor
  case left =>
    intro pc op sp n b
    exact ⟨⟨rfl, rfl, rfl, rfl⟩, ⟨rfl, rfl, rfl, rfl⟩, ⟨rfl, rfl, rfl, rfl⟩,
      ⟨rfl, rfl, rfl, rfl⟩, ⟨rfl, rfl, rfl, rfl⟩⟩
  case right =>
    intro s t f hs h hf
    obtain ⟨hff, -⟩ := firstFault_of_step_faulted hs h hf
    obtain ⟨hpc, hop⟩ := firstFault_place hff
    exact ⟨hpc, hop, by rw [run_succ hs h, run, runResult_eq_faulted.2 hf]⟩

/-! ### The ALU's fault is never reached (60_exceptions.md R117) -/

theorem executeFault_ne_invalidALUOperation {i : Instr} {s : State} {c : FaultCause} (h : executeFault i s = some c)
    (op : Byte) : c ≠ .invalidALUOperation op := by
  rcases Option.or_eq_some_iff.1 h with hf | ⟨-, ho⟩
  · obtain ⟨n, rfl⟩ := firstIllegalField_eq_some hf
    exact nofun
  · obtain ⟨-, rfl | rfl | rfl⟩ := ownFault_cases ho <;> exact nofun

theorem fetch_error_ne_invalidALUOperation {s : State} {e : FetchFault} (h : fetch s = .error e) (op : Byte) :
    e.cause ≠ .invalidALUOperation op := by
  rcases fetch_cases s with ⟨-, he⟩ | ⟨-, -, he⟩ | ⟨m, -, -, -, he⟩ | ⟨m, -, -, -, he⟩
  case inr.inr.inr => rw [he] at h; contradiction
  all_goals
    obtain rfl := Except.error.inj (he.symm.trans h)
    exact nofun

theorem firstFault_ne_invalidALUOperation {s : State} {f : FaultRecord} (h : firstFault s = some f) (op : Byte) :
    f.cause ≠ .invalidALUOperation op := by
  cases hf : fetch s with
  | error e =>
    obtain rfl := Option.some.inj ((firstFault_of_fetch_error hf).symm.trans h)
    exact fetch_error_ne_invalidALUOperation hf op
  | ok i =>
    obtain ⟨c, hc, rfl⟩ := Option.map_eq_some_iff.1 ((firstFault_of_fetch_ok hf).symm.trans h)
    exact executeFault_ne_invalidALUOperation hc op

/-- A two-register instruction whose ALU call errs takes fault entry. -/
theorem executeTwoRegister_error {m : Mnemonic} {ra rb : Byte} {i j : Fin 8} (s : State) {c : FaultCause}
    (ha : ra.toNat = i.val) (hb : rb.toNat = j.val) (hc : alu m.opcode (s.reg i) (s.reg j) = .error c) :
    executeTwoRegister m ra rb s = .next (afterFault c (some m.opcode) s) := by
  rw [executeTwoRegister, bind_regOperands ha hb]
  dsimp only
  rw [hc]
  rfl

theorem afterFault_status_ne_running (c : FaultCause) (op : Option Byte) (s : State) :
    (afterFault c op s).status ≠ .running := nofun

/-- Settles O46: a Faulted outcome carries the first fault, which comes from the fetch or from `executeFault`, and neither
asks the ALU; an ALU error would be fault entry, and that state is stopped. -/
theorem noProgramRaisesInvalidAluOperation : Obligations.NoProgramRaisesInvalidAluOperation := by
  refine ⟨fun s hs => ?_, fun s m ra rb i j c ha hb hc => ?_⟩
  · obtain ⟨t, h⟩ := step_next s
    refine ⟨t, h, fun f op hf => ?_⟩
    exact firstFault_ne_invalidALUOperation (firstFault_of_step_faulted hs h hf).1 op
  · exact ⟨executeTwoRegister_error s ha hb hc, step_stopped (afterFault_status_ne_running _ _ _)⟩

end Sys2Proof.Machine
end

section
/-! The reset port (70_reset_and_hazards.md R127). -/

namespace Sys2Proof.Machine

@[simp] theorem applyReset_reg (s : State) (i : Fin Config.numRegs) : s.applyReset.reg i = State.reset.reg i := rfl

@[simp] theorem applyReset_byteAt (s : State) (a : Nat) : s.applyReset.byteAt a = s.byteAt a := rfl

/-- Settles O49: the port gives every field but memory the value `resetValues` states, whatever the state it finds; a
stopped state's step is `step_stopped`. -/
theorem resetPortRestoresAllButMemory : Obligations.ResetPortRestoresAllButMemory := by
  obtain ⟨hregs, hsp, -⟩ := resetValues
  intro s
  have hmem : MemSameExcept [] s s.applyReset := fun a _ => applyReset_byteAt s a
  exact ⟨fun i hi => (applyReset_reg s i).trans (hregs i hi), (applyReset_reg s 7).trans hsp, applyReset_pc s,
    applyReset_fl s, applyReset_status s, applyReset_out s, hmem, step_stopped⟩

end Sys2Proof.Machine
end

section
/-! The round trip of 30_encoding.md: a list that decodes is the encoding of what it decodes to, followed by the bytes
left over. -/

namespace Sys2Proof

/-- Operand bytes that decode are the instruction's operand bytes and what is left. -/
theorem eq_operandBytes_append_of_decodeOperands {m : Mnemonic} {bs rest : List Byte} {i : Instr}
    (h : decodeOperands m bs = .ok (i, rest)) : bs = i.operandBytes ++ rest := by
  obtain ⟨hn, hd⟩ | ⟨b1, tl, hn, rfl, hd⟩ | ⟨b1, b2, tl, hn, rfl, hd⟩ | ⟨-, hd⟩ := decodeOperands_cases m bs
  case inr.inr.inr => rw [hd] at h; contradiction
  all_goals
    obtain ⟨rfl, rfl⟩ := Prod.mk.inj (Except.ok.inj (hd.symm.trans h))
    rw [Mnemonic.instr_operandBytes, hn]
    rfl

theorem eq_encode_append_of_decode {bytes rest : List Byte} {i : Instr} (h : decode bytes = .ok (i, rest)) :
    bytes = encode i ++ rest := by
  cases bytes with
  | nil => contradiction
  | cons op bs =>
    obtain ⟨hl, -⟩ := decode_eq_ok h
    rw [decode_known hl] at h
    rw [encode, opcode_of_lookup hl, List.cons_append, ← eq_operandBytes_append_of_decodeOperands h]

/-- Settles O31: a list that decodes begins with the opcode byte the map looked up and then the operand bytes the format
takes, which is the encoding; the other direction is `decode_encode_append`. -/
theorem decodeAndEncodeAgree : Obligations.DecodeAndEncodeAgree :=
  fun _ rest i => ⟨eq_encode_append_of_decode, fun h => h ▸ decode_encode_append i rest⟩

end Sys2Proof
end

section
/-! The invariant of a run, kept by every step and established by reset; that every step and every execution answers a next
state; and how the engine halts (10_state.md R34). A step
from Running is fault entry or the normal outcome of an instruction that lies in memory at pc; of a normal outcome the lemmas
say what it can do to memory, to FL and to pc. -/

namespace Sys2Proof.Machine

/-! ### A step from Running -/

/-- A fetched instruction lies in memory at pc, its opcode byte first (40_execution_engine.md R77, R78). -/
theorem place_of_fetch_ok {s : State} {i : Instr} (h : fetch s = .ok i) :
    s.byteAt s.pc = i.mnemonic.opcode ∧ s.pc + i.width ≤ 256 := by
  rcases fetch_cases s with ⟨-, he⟩ | ⟨-, -, he⟩ | ⟨m, -, -, -, he⟩ | ⟨m, -, hl, hw, he⟩
  case inr.inr.inr =>
    obtain rfl := Except.ok.inj (he.symm.trans h)
    rw [Instr.width, Mnemonic.instr_mnemonic]
    exact ⟨(opcode_of_lookup hl).symm, hw⟩
  all_goals rw [he] at h; contradiction

/-- The inversion lemma of `step` from Running. -/
theorem step_running_cases {s t : State} (hs : s.status = .running) (h : step s = .next t) :
    (∃ f, firstFault s = some f ∧ t = { s with status := .faulted f }) ∨
    (∃ i, fetch s = .ok i ∧ Completes s i t) := by
  cases hff : firstFault s with
  | some f => exact .inl ⟨f, rfl, Host.Outcome.next.inj (h.symm.trans (step_of_firstFault_some hs hff))⟩
  | none =>
    cases hf : fetch s with
    | error e => rw [firstFault_of_fetch_error hf] at hff; contradiction
    | ok i =>
      have hn : executeFault i s = none := Option.map_eq_none_iff.1 ((firstFault_of_fetch_ok hf).symm.trans hff)
      obtain ⟨c, hc, -⟩ | ⟨-, ht⟩ := exec_cases ((step_of_fetch_ok hs hf).symm.trans h)
      · rw [hn] at hc; contradiction
      · exact .inr ⟨i, rfl, ht⟩

/-! ### What a normal outcome can do to memory, FL and pc -/

/-- Memory stays, or PUSH or CALL has written the cell below SP (20_memory.md R45). -/
theorem Completes.mem_cases {i : Instr} {s t : State} (h : Completes s i t) :
    t.mem = s.mem ∨
    ((∃ r, i = .push r ∨ i = .call r) ∧ s.sp.toNat - 1 ≤ 0xF4 ∧ ∃ v, t.mem = s.mem.set (s.sp.toNat - 1) v) := by
  cases h with
  | push r _ _ _ h1 => exact .inr ⟨⟨r, .inl rfl⟩, h1, _, rfl⟩
  | call r _ _ _ h1 => exact .inr ⟨⟨r, .inr rfl⟩, h1, _, rfl⟩
  | _ => exact .inl rfl

theorem Completes.mem_wf {i : Instr} {s t : State} (h : Completes s i t) (hs : s.mem.wf = true) :
    t.mem.wf = true := by
  obtain hmem | ⟨-, hle, v, hmem⟩ := h.mem_cases
  · rw [hmem]; exact hs
  · rw [hmem]; exact Memory.set_wf v hs (Nat.lt_of_le_of_lt hle (by decide))

/-- A compare leaves exactly one flag (10_state.md R29). -/
theorem legalFlags_compareFlags (a b : Byte) : LegalFlags (compareFlags a b) := by
  obtain ⟨-, h⟩ | ⟨-, h⟩ | ⟨-, h⟩ := compareFlags_cases a b
  · exact .inr (.inl h)
  · exact .inr (.inr (.inl h))
  · exact .inr (.inr (.inr h))

theorem Completes.legalFlags {i : Instr} {s t : State} (h : Completes s i t) (hs : LegalFlags s.fl) :
    LegalFlags t.fl := by
  cases h with
  | cmp => exact legalFlags_compareFlags ..
  | _ => exact hs

/-- HLT leaves pc; every other instruction moves it past itself or sets it to a byte (10_state.md R25). -/
theorem Completes.pc_cases {i : Instr} {s t : State} (h : Completes s i t) :
    t.pc = s.pc ∨ t.pc = s.pc + i.width ∨ ∃ b : Byte, t.pc = b.toNat := by
  cases h with
  | hlt => exact .inl rfl
  | ret | call | jmp => exact .inr (.inr ⟨_, rfl⟩)
  | jeq =>
    rw [setPc_pc]
    split
    · exact .inr (.inr ⟨_, rfl⟩)
    · exact .inr (.inl rfl)
  | jne =>
    rw [setPc_pc]
    split
    · exact .inr (.inl rfl)
    · exact .inr (.inr ⟨_, rfl⟩)
  | _ => exact .inr (.inl rfl)

theorem Completes.pc_le {i : Instr} {s t : State} (h : Completes s i t) (hw : s.pc + i.width ≤ 256) :
    t.pc ≤ 256 := by
  obtain hpc | hpc | ⟨b, hpc⟩ := h.pc_cases
  · omega
  · omega
  · have := b.isLt
    omega

/-- A normal outcome from Running is Running, or it is HLT's, which stands at its own opcode byte. -/
theorem Completes.statusConsistent {i : Instr} {s t : State} (h : Completes s i t) (hs : s.status = .running)
    (hpc : s.pc < 256) (hop : s.byteAt s.pc = i.mnemonic.opcode) : StatusConsistent t := by
  unfold StatusConsistent
  cases h with
  | hlt => exact ⟨hpc, hop⟩
  | _ => simp [hs]

/-! ### The invariant -/

theorem Completes.inv {i : Instr} {s t : State} (h : Completes s i t) (hinv : Inv s) (hs : s.status = .running)
    (hf : fetch s = .ok i) : Inv t := by
  obtain ⟨hop, hw⟩ := place_of_fetch_ok hf
  have hpc : s.pc < 256 := by
    obtain ⟨hpos, -⟩ := width_bounds i.mnemonic
    rw [Instr.width] at hw
    omega
  exact {
    memory := h.mem_wf hinv.memory
    flags := h.legalFlags hinv.flags
    pc := h.pc_le hw
    status := h.statusConsistent hs hpc hop }

/-- Fault entry with the first fault keeps the invariant: it changes only the status, and the record it puts there names
this instruction (60_exceptions.md R113, R114). -/
theorem inv_faulted {s : State} {f : FaultRecord} (hinv : Inv s) (hf : firstFault s = some f) :
    Inv { s with status := .faulted f } where
  memory := hinv.memory
  flags := hinv.flags
  pc := hinv.pc
  status := by
    obtain ⟨hpc, hop⟩ := firstFault_place hf
    exact ⟨hpc, hop, firstFault_ne_invalidALUOperation hf⟩

/-- Settles O52: a stopped engine's step changes nothing; from Running a step is fault entry with the first fault, or the
normal outcome of the instruction fetched. -/
theorem everyStepKeepsInvariant : Obligations.EveryStepKeepsInvariant := by
  intro s t hinv h
  by_cases hs : s.status = .running
  · obtain ⟨f, hf, rfl⟩ | ⟨i, hf, ht⟩ := step_running_cases hs h
    · exact inv_faulted hinv hf
    · exact ht.inv hinv hs hf
  · rw [step_stopped hs] at h
    exact Host.Outcome.next.inj h ▸ hinv

/-- Settles O51: reset is the reset port from itself, and the port needs nothing of the invariant but canonical memory. -/
theorem invariantHoldsAtReset : Obligations.InvariantHoldsAtReset :=
  ⟨inv_applyReset (s := State.reset) rfl, fun _ hinv => inv_applyReset hinv.memory⟩

/-- Settles O40: an execution raises or completes, and a step is an execution, a fault of the fetch, or nothing. -/
theorem everyStepAnswersNext : Obligations.EveryStepAnswersNext := ⟨step_next, exec_next⟩

/-! ### Halting -/

/-- A HLT byte at pc halts the engine in place (42_control_flow.md R96). -/
theorem step_of_hlt_byte {s : State} (hs : s.status = .running) (hpc : s.pc < 256) (hop : s.byteAt s.pc = 0x01) :
    step s = .next { s with status := .halted } := by
  have hl : lookupOpcode (s.byteAt s.pc) = some .hlt := by rw [hop]; rfl
  have hf : fetch s = .ok .hlt := fetch_ok hl hpc
  exact (step_of_fetch_ok hs hf).trans (exec_of_completes .hlt)

/-- A step that leaves Halted stood at a HLT byte. -/
theorem hlt_byte_of_step_halted {s t : State} (hs : s.status = .running) (h : step s = .next t)
    (ht : t.status = .halted) : s.pc < 256 ∧ s.byteAt s.pc = 0x01 := by
  obtain ⟨f, -, rfl⟩ | ⟨i, hf, hc⟩ := step_running_cases hs h
  · contradiction
  · obtain ⟨hop, hw⟩ := place_of_fetch_ok hf
    by_cases hi : i = .hlt
    · subst hi
      exact ⟨hw, hop⟩
    · rw [hc.status_of_ne_hlt hi, hs] at ht
      contradiction

/-- Settles O47: a step at a HLT byte only sets the status, and only a step at a HLT byte leaves Halted. -/
theorem onlyHltHalts : Obligations.OnlyHltHalts := by
  intro s t hs h
  have hhalt (hat : s.pc < 256 ∧ s.byteAt s.pc = 0x01) : t = { s with status := .halted } := by
    obtain ⟨hpc, hop⟩ := hat
    exact Host.Outcome.next.inj (h.symm.trans (step_of_hlt_byte hs hpc hop))
  exact ⟨⟨hlt_byte_of_step_halted hs h, fun hat => by rw [hhalt hat]⟩,
    fun ht => hhalt (hlt_byte_of_step_halted hs h ht)⟩

end Sys2Proof.Machine
end

section
/-! Fetching what memory holds at pc (40_execution_engine.md R77): bytes that decode, wherever they come from, and the
placed table word of log entry 3; and the fetch outside memory (10_state.md R25). -/

namespace Sys2Proof.Machine

/-- An instruction whose encoding stands in memory at pc is fetched. -/
theorem fetch_of_encode {s : State} {i : Instr} (hw : s.pc + i.width ≤ 256)
    (h : (List.range' s.pc i.width).map s.byteAt = encode i) : fetch s = .ok i := by
  rw [Instr.width, width_eq] at hw h
  rw [List.range'_succ, List.map_cons, encode] at h
  obtain ⟨hop, hoperands⟩ := List.cons.inj h
  have hdecode : decode (i.mnemonic.opcode :: i.operandBytes) = .ok (i, []) := by
    simpa [encode] using decode_encode_append i []
  simp only [fetch, memRead_of_lt s (show s.pc < 256 by omega), hop, operandCountOf_opcode]
  rw [memReadBytes_of_le s (by omega), hoperands]
  simp only [hdecode]

/-- An instruction that memory's bytes from pc decode to is fetched, however many bytes are looked at. -/
theorem fetch_of_decode {s : State} {n : Nat} {i : Instr} {rest : List Byte} (hn : s.pc + n ≤ 256)
    (h : decode ((List.range' s.pc n).map s.byteAt) = .ok (i, rest)) : fetch s = .ok i := by
  have hbytes := eq_encode_append_of_decode h
  have hlength : n = i.width + rest.length := by
    simpa [encode_length] using congrArg List.length hbytes
  refine fetch_of_encode (by omega) ?_
  rw [hlength, ← List.range'_append_1, List.map_append] at hbytes
  exact (List.append_inj hbytes (by simp [encode_length])).1

/-- Settles O34: bytes that decode are at least one, so pc lies in memory, and the fetch gives what they decode to. -/
theorem stepRunsDecodedInstruction : Obligations.StepRunsDecodedInstruction := by
  intro s i rest hs h
  rcases Nat.lt_or_ge s.pc 256 with hpc | hpc
  · exact step_of_fetch_ok hs (fetch_of_decode (by omega) h)
  · rw [Nat.sub_eq_zero_of_le hpc] at h
    contradiction

/-- Bytes loaded where they all fit are read back in order. -/
theorem map_get_load {m : Memory} {a : Nat} {bytes : List Byte} (h : a + bytes.length ≤ 256) :
    (List.range' a bytes.length).map (m.load a bytes).get = bytes := by
  refine List.ext_getElem (by simp) fun k hk hk' => ?_
  have hin : a ≤ a + k ∧ a + k - a < bytes.length ∧ a + k < Config.memSize :=
    ⟨by omega, by omega, show a + k < 256 by omega⟩
  rw [List.getElem_map, List.getElem_range', Nat.one_mul, Memory.load_get, dif_pos hin]
  simp

theorem bytesOfNat_length (n w : Nat) : (bytesOfNat n w).length = n := by
  induction n generalizing w with
  | zero => rfl
  | succ n ih => rw [bytesOfNat, List.length_cons, ih]

theorem decode_of_decodeTableWord {nbits w : Nat} {i : Instr} (h : decodeTableWord nbits w = some i) :
    ∃ rest, decode (tableWordBytes nbits w) = .ok (i, rest) := by
  unfold decodeTableWord at h
  split at h
  next j rest hd => exact ⟨rest, Option.some.inj h ▸ hd⟩
  next => contradiction

/-- Settles O35: three bytes fit at pc and are read back as they were placed, so the fetch gives what they decode to. -/
theorem placedTableWordRunsNext : Obligations.PlacedTableWordRunsNext := by
  intro s nbits w i hpc h
  obtain ⟨rest, hd⟩ := decode_of_decodeTableWord h
  have hlength : (tableWordBytes nbits w).length = 3 := bytesOfNat_length ..
  have hplaced : (List.range' s.pc 3).map (s.withFetchWord nbits w).byteAt = tableWordBytes nbits w := by
    rw [← hlength]
    exact map_get_load (by omega)
  have hf : fetch (s.withFetchWord nbits w) = .ok i :=
    fetch_of_decode (s := s.withFetchWord nbits w) (n := 3) hpc (hplaced ▸ hd)
  exact ⟨step_of_fetch_ok rfl hf, rfl⟩

/-- Settles O30: the decoder run on each of the eight words. -/
theorem sampleWordsDecode : Obligations.SampleWordsDecode :=
  ⟨rfl, rfl, rfl, rfl, rfl, rfl, rfl, rfl⟩

/-- Settles O38: the fetch faults before it has an opcode byte. -/
theorem fetchPastMemoryRaises : Obligations.FetchPastMemoryRaises :=
  fun _ hs hpc => step_of_fetch_error hs (fetch_past hpc)

end Sys2Proof.Machine
end

section
/-! The ALU's contract (43_alu.md R101) and what a compare says to the instruction after it (R104, 95_test_vectors.md S4 and
S7). -/

namespace Sys2Proof.Machine

/-! ### The ALU -/

theorem compareFlags_eq_ite (a b : Byte) :
    compareFlags a b = if a = b then 0x01 else if b < a then 0x02 else 0x04 := by
  simp only [compareFlags, BitVec.toNat_inj, BitVec.lt_def]

/-- A byte that names none of the six operations raises: it is no opcode, or another instruction's (43_alu.md R101). -/
theorem alu_of_no_operation {op : Byte} (a b : Byte) (h : op ∉ ([0xA0, 0xA2, 0xA7, 0xA8, 0xAA, 0xAB] : List Byte)) :
    alu op a b = .error (.invalidALUOperation op) := by
  cases hl : lookupOpcode op with
  | none => simp only [alu, hl]
  | some m =>
    obtain rfl := opcode_of_lookup hl
    cases m with
    | add | mul | cmp | and | or | xor => exact absurd (by decide) h
    | _ => rfl

/-- Settles O17: the six operations by the laws of `alu`, every other byte by `alu_of_no_operation`. -/
theorem aluContract : Obligations.AluContract := by
  refine fun a b => ⟨alu_add a b, alu_mul a b, ?cmp, alu_and a b, alu_or a b, alu_xor a b,
    fun op => alu_of_no_operation a b⟩
  case cmp => rw [← compareFlags_eq_ite]; exact alu_cmp a b

/-! ### The flags of a compare -/

/-- Settles O18: in each of the three cases of the compare both orders' FL is known, and the two mirror each other. -/
theorem cmpSwappedMirrorsFlags : Obligations.CmpSwappedMirrorsFlags := by
  obtain ⟨-, hcmp⟩ := cmpWritesWholeFlags
  intro s ra rb i j ha hb
  obtain ⟨t, ht, hteq, htgt, htlt, -⟩ := hcmp s ra rb i j ha hb
  obtain ⟨u, hu, hueq, hugt, hult, -⟩ := hcmp s rb ra j i hb ha
  refine ⟨t, u, ht, hu, ?_⟩
  rcases Nat.lt_trichotomy (s.reg i).toNat (s.reg j).toNat with h | h | h
  · rw [htlt h, hugt h]; decide
  · rw [hteq h, hueq h.symm]; decide
  · rw [htgt h, hult h]; decide

/-- Settles O19: CMP leaves E set exactly for equal registers and keeps the branch's register, and JEQ and JNE read just
that bit. -/
theorem compareThenBranchOnEquality : Obligations.CompareThenBranchOnEquality := by
  obtain ⟨-, hcmp⟩ := cmpWritesWholeFlags
  obtain ⟨-, hjeq, -⟩ := jeqJumpsWhenEqual
  obtain ⟨-, hjne, -⟩ := jneJumpsWhenNotEqual
  intro s ra rb r i j k ha hb hr
  obtain ⟨t, ht, hteq, htgt, htlt, htpc, htregs, -⟩ := hcmp s ra rb i j ha hb
  obtain ⟨u, hu, huset, huclear, -⟩ := hjeq t r k hr
  obtain ⟨v, -, hv, hvclear, hvset, -⟩ := hjne t r k hr
  have hk : t.reg k = s.reg k := htregs k List.not_mem_nil
  rw [hk] at huset hvclear
  rw [htpc] at huclear hvset
  refine ⟨t, u, v, ht, hu, hv, fun heq => ?_, fun hne => ?_⟩
  · have hE : t.fl.getLsbD 0 = true := by rw [hteq (congrArg _ heq)]; rfl
    exact ⟨huset hE, hvset hE⟩
  · have hE : t.fl.getLsbD 0 = false := by
      rcases Nat.lt_or_gt_of_ne (mt BitVec.eq_of_toNat_eq hne) with h | h
      · rw [htlt h]; rfl
      · rw [htgt h]; rfl
    exact ⟨huclear hE, hvclear hE⟩

end Sys2Proof.Machine
end

section
/-! Pairs of stack instructions (20_memory.md R57 and R60, 95_test_vectors.md S5 and S6). What each of the two does is its own
statement; here frames are composed, and a register that holds its first value again leaves the frame. -/

namespace Sys2Proof.Machine

/-! ### Slots -/

/-- The inversion lemma of `PushSlot` (20_memory.md R54). -/
theorem pushSlot_eq_ok {s s1 : State} {a : Nat} (h : pushSlot s = .ok (a, s1)) :
    a = s.sp.toNat - 1 ∧ s.sp.toNat - 1 ≤ 0xF4 := by
  obtain ⟨h0, h1, -⟩ | ⟨-, he⟩ := push_cases s
  · rw [pushSlot_ok h0 h1] at h
    obtain ⟨rfl, -⟩ := Prod.mk.inj (Except.ok.inj h)
    exact ⟨rfl, h1⟩
  · rw [he] at h; contradiction

/-- The inversion lemma of `PopSlot` (20_memory.md R55). -/
theorem popSlot_eq_ok {s : State} {a : Nat} (h : popSlot s = .ok a) : a = s.sp.toNat ∧ s.sp.toNat < 0xF4 := by
  obtain ⟨hlt, -⟩ | ⟨-, he⟩ := pop_cases s
  · rw [popSlot_ok hlt] at h
    exact ⟨(Except.ok.inj h).symm, hlt⟩
  · rw [he] at h; contradiction

/-- Settles O23: the bound a slot's check leaves is below the size of memory. -/
theorem stackAccessesAreInBounds : Obligations.StackAccessesAreInBounds := by
  refine ⟨fun s s1 a h => ?_, fun s a h => ?_⟩
  · obtain ⟨rfl, hle⟩ := pushSlot_eq_ok h
    exact ⟨hle, fun v => ⟨_, memWrite_of_lt v s1 (by omega)⟩⟩
  · obtain ⟨rfl, hlt⟩ := popSlot_eq_ok h
    exact ⟨hlt, _, memRead_of_lt s (by omega)⟩

/-! ### Frames of two instructions -/

theorem OnlyWrites.trans {regs regs' : List (Fin Config.numRegs)} {cells cells' : List Nat} {s t u : State}
    (h : OnlyWrites regs cells s t) (h' : OnlyWrites regs' cells' t u) :
    OnlyWrites (regs ++ regs') (cells ++ cells') s u := by
  obtain ⟨hregs, hmem, hfl, hstatus, hout⟩ := h
  obtain ⟨hregs', hmem', hfl', hstatus', hout'⟩ := h'
  refine ⟨fun j hj => ?_, fun a ha => ?_, hfl'.trans hfl, hstatus'.trans hstatus, hout'.trans hout⟩
  · rw [List.mem_append, not_or] at hj
    exact (hregs' j hj.2).trans (hregs j hj.1)
  · rw [List.mem_append, not_or] at ha
    exact (hmem' a ha.2).trans (hmem a ha.1)

/-- Registers that were written and hold their first value again count as not written. -/
theorem OnlyWrites.of_restored {regs : List (Fin Config.numRegs)} {cells : List Nat} {s t : State}
    (h : OnlyWrites regs cells s t) (hrestored : ∀ j ∈ regs, t.reg j = s.reg j) : OnlyWrites [] cells s t := by
  obtain ⟨hregs, hrest⟩ := h
  refine ⟨fun j _ => ?_, hrest⟩
  by_cases hj : j ∈ regs
  · exact hrestored j hj
  · exact hregs j hj

/-! ### The pairs -/

/-- SP is what it was when the second instruction raises it by the one the first lowered it by. -/
theorem sp_restored {s u : State} (h0 : 0 < s.sp.toNat) (h : (u.reg 7).toNat = s.sp.toNat - 1 + 1) :
    u.reg 7 = s.reg 7 :=
  BitVec.eq_of_toNat_eq (h.trans (Nat.sub_add_cancel h0))

/-- Settles O24: POP reads the cell PUSH wrote, which held the register, and raises SP again; for R7 both are one, since the
byte pushed is the lowered SP. -/
theorem pushThenPopRestoresRegisters : Obligations.PushThenPopRestoresRegisters := by
  intro s r i hr h0 h1
  obtain ⟨-, hpush⟩ := pushStoresBelowStackPointer.2 s r i hr
  obtain ⟨_, _, t, -, rfl, ht, htsp, htcell, htpc, htframe⟩ := hpush h0 (by omega)
  have htsp' : t.sp.toNat = s.sp.toNat - 1 := (congrArg _ htsp).trans (sp_sub_one_toNat h0)
  obtain ⟨-, hpop⟩ := popLoadsTopOfStack.2 t r i hr
  obtain ⟨u, hu, hother, hseven, hupc, huframe⟩ := hpop (by omega)
  rw [htsp', htcell] at hother hseven
  have hupc' : u.pc = s.pc + 4 := by rw [hupc, htpc]
  have hrestored : u.reg 7 = s.reg 7 ∧ u.reg i = s.reg i := by
    by_cases hi : i = 7
    · have hwrap : (s.sp.toNat - 1 + 1) % 256 = s.sp.toNat - 1 + 1 := Nat.mod_eq_of_lt (by omega)
      have hsp : (u.reg 7).toNat = s.sp.toNat - 1 + 1 := by
        rw [hseven hi, if_pos hi, sp_sub_one_toNat h0, hwrap]
      exact ⟨sp_restored h0 hsp, by rw [hi, sp_restored h0 hsp]⟩
    · obtain ⟨hvalue, hsp⟩ := hother hi
      exact ⟨sp_restored h0 hsp, hvalue.trans (if_neg hi)⟩
  obtain ⟨hsp, hreg⟩ := hrestored
  have hwritten : ∀ j ∈ [7] ++ [i, 7], u.reg j = s.reg j := by simp [hsp, hreg]
  exact ⟨t, u, ht, hu, hupc', (htframe.trans huframe).of_restored hwritten⟩

/-- Settles O25: RET reads the cell CALL wrote, which held the return address, and raises SP again. -/
theorem callThenRetReturns : Obligations.CallThenRetReturns := by
  intro s r i hr h0 h1 hpc
  obtain ⟨-, -, hcall⟩ := callPushesReturnAddressAndJumps.2 s r i hr
  obtain ⟨_, _, t, -, rfl, ht, htsp, htcell, -, htframe⟩ := hcall h0 (by omega) hpc
  have htsp' : t.sp.toNat = s.sp.toNat - 1 := (congrArg _ htsp).trans (sp_sub_one_toNat h0)
  obtain ⟨-, hret⟩ := retPopsProgramCounter.2 t
  obtain ⟨u, hu, hupc, husp, huframe⟩ := hret (by omega)
  rw [htsp'] at hupc husp
  have hwritten : ∀ j ∈ [7] ++ [7], u.reg j = s.reg j := by simp [sp_restored h0 husp]
  exact ⟨t, u, ht, hu, hupc.trans htcell, (htframe.trans huframe).of_restored hwritten⟩

/-- Settles O26: PUSH leaves its byte in the cell pc then stands at, and that byte is HLT's. -/
theorem pushedByteIsFetchedNext : Obligations.PushedByteIsFetchedNext := by
  obtain ⟨-, hpush⟩ := pushStoresBelowStackPointer
  intro s r i hr hs hi hreg h0 h1 hpc
  obtain ⟨-, hpush⟩ := hpush s r i hr
  obtain ⟨_, _, t, -, rfl, ht, -, htcell, htpc, -, -, -, hstatus, -⟩ := hpush h0 h1
  have hop : t.byteAt t.pc = 0x01 := by rw [htpc, hpc, htcell, if_neg hi, hreg]
  exact ⟨t, ht, step_of_hlt_byte (hstatus.trans hs) (by omega) hop⟩

end Sys2Proof.Machine
end

section
/-! Who touches memory (20_memory.md R45) and which registers an instruction uses (10_state.md R20). As for FL and the
output, a read is shown by replacing the piece of state; what an execution comes to is taken from `exec_cases`. -/

namespace Sys2Proof.Machine

/-! ### Memory -/

/-- No check reads memory. -/
theorem executeFault_withMem (i : Instr) (s : State) (m : Memory) :
    executeFault i { s with mem := m } = executeFault i s := rfl

/-- A normal outcome with another memory: POP and RET read the cell at SP, and no other instruction reads any. -/
theorem Completes.withMem {i : Instr} {s t : State} {m : Memory} (h : Completes s i t)
    (hm : (i = .ret ∨ ∃ r, i = .pop r) → m.get s.sp.toNat = s.byteAt s.sp.toNat) :
    ∃ u, Completes { s with mem := m } i u ∧ { u with mem := t.mem } = t := by
  cases h with
  | ret hsp =>
    refine ⟨_, .ret hsp, ?_⟩
    rw [← hm (.inl rfl)]
    rfl
  | pop r j hr hsp =>
    refine ⟨_, .pop r j hr hsp, ?_⟩
    rw [← hm (.inr ⟨r, rfl⟩)]
    rfl
  | _ => exact ⟨_, by constructor <;> assumption, rfl⟩

/-- Settles O21: a fault neither writes nor reads memory, and for a normal outcome `Completes.mem_cases` and
`Completes.withMem` say it. -/
theorem onlyStackInstructionsTouchMemory : Obligations.OnlyStackInstructionsTouchMemory := by
  constructor
  · intro i s t a h hne
    obtain ⟨c, -, rfl⟩ | ⟨-, ht⟩ := exec_cases h
    · exact absurd (raise_byteAt ..) hne
    · obtain hmem | ⟨hi, -, v, hmem⟩ := ht.mem_cases
      · exact absurd (congrArg (Memory.get · a) hmem) hne
      · refine ⟨hi, by_contra fun ha => hne ?_⟩
        rw [State.byteAt, hmem, Memory.get_set, if_neg ha, State.byteAt]
  · intro i s t m h hm
    obtain ⟨c, hc, rfl⟩ | ⟨-, ht⟩ := exec_cases h
    · exact ⟨_, exec_of_executeFault_some ((executeFault_withMem ..).trans hc), rfl⟩
    · obtain ⟨u, hu, hut⟩ := ht.withMem hm
      exact ⟨u, exec_of_completes hu, hut⟩

/-! ### Registers -/

theorem fieldReg_of_eq {f : Byte} {i : Fin 8} (h : f.toNat = i.val) : fieldReg f = [i] := by
  rw [fieldReg, dif_pos (by omega)]
  exact congrArg (fun j => [j]) (Fin.ext h)

/-- A normal outcome writes no register outside the "writes" column of 10_state.md R20. -/
theorem Completes.regsSameExcept {i : Instr} {s t : State} (h : Completes s i t) :
    RegsSameExcept (writesRegs i) s t := by
  have hslot : RegsSameExcept [7] s (afterPushSlot s) :=
    ((OnlyWrites.refl [7] [] s).setSp (List.mem_singleton_self 7) _).1
  cases h with
  | hlt | prn | jmp | jeq | jne | cmp => exact fun _ _ => rfl
  | push | call => exact hslot
  | ret => exact ((OnlyWrites.refl [7] [] s).setSp (List.mem_singleton_self 7) _).1
  | pop r k hr =>
    rw [writesRegs, fieldReg_of_eq hr]
    exact (((OnlyWrites.refl [7, k] [] s).setReg (by simp) _).setSp (by simp) _).1
  | ldi _ _ _ hr | add _ _ _ _ hr | mul _ _ _ _ hr | and _ _ _ _ hr | or _ _ _ _ hr | xor _ _ _ _ hr =>
    rw [writesRegs, fieldReg_of_eq hr]
    exact (onlyWrites_setReg_advance ..).1

/-- Two outcomes agree in the registers listed and in everything but the register file. -/
def AgreeOn (written : List (Fin Config.numRegs)) (u t : State) : Prop :=
  { u with regs := t.regs } = t ∧ ∀ j ∈ written, u.reg j = t.reg j

section OtherRegisters
variable {s : State} {regs : Vector Byte 8}

theorem withRegs_byteAt (a : Nat) : ({ s with regs := regs } : State).byteAt a = s.byteAt a := rfl

/-- Writing one register and moving on, with any other register file: the byte written is all that matters. -/
theorem agreeOn_setReg_advance {r : Byte} {i : Fin 8} {v v' : Byte} (w : Nat) (hr : r.toNat = i.val) (hv : v' = v) :
    AgreeOn (fieldReg r) ((({ s with regs := regs } : State).setReg i v').advance w) ((s.setReg i v).advance w) := by
  subst hv
  refine ⟨rfl, fun j hj => ?_⟩
  obtain rfl : j = i := by simpa [fieldReg_of_eq hr] using hj
  rw [setReg_advance_reg_same, setReg_advance_reg_same]

/-- A normal outcome with another register file that agrees on the "reads" column of 10_state.md R20. -/
theorem Completes.withRegs {i : Instr} {t : State} (h : Completes s i t)
    (hread : ∀ j ∈ readsRegs i s.fl, ({ s with regs := regs } : State).reg j = s.reg j) :
    ∃ u, Completes { s with regs := regs } i u ∧ AgreeOn (writesRegs i) u t := by
  cases h with
  | hlt => exact ⟨_, .hlt, rfl, nofun⟩
  | ret hlt =>
    have hsp : ({ s with regs := regs } : State).sp = s.sp := hread 7 List.mem_cons_self
    refine ⟨_, .ret (hsp ▸ hlt), ?_⟩
    rw [hsp]
    exact ⟨rfl, by simp [writesRegs]⟩
  | push r k hr h0 h1 =>
    have hsp : ({ s with regs := regs } : State).sp = s.sp := hread 7 List.mem_cons_self
    have hk := hread k (by simp [readsRegs, fieldReg_of_eq hr])
    refine ⟨_, .push r k hr (hsp ▸ h0) (hsp ▸ h1), ?_⟩
    rw [setSp_reg, hsp, hk, setSp_reg]
    exact ⟨rfl, by simp [writesRegs, hsp]⟩
  | call r k hr h0 h1 h2 =>
    have hsp : ({ s with regs := regs } : State).sp = s.sp := hread 7 List.mem_cons_self
    have hk := hread k (by simp [readsRegs, fieldReg_of_eq hr])
    refine ⟨_, .call r k hr (hsp ▸ h0) (hsp ▸ h1) h2, ?_⟩
    rw [setSp_reg, hsp, hk, setSp_reg]
    exact ⟨rfl, by simp [writesRegs, hsp]⟩
  | pop r k hr hlt =>
    have hsp : ({ s with regs := regs } : State).sp = s.sp := hread 7 List.mem_cons_self
    refine ⟨_, .pop r k hr (hsp ▸ hlt), ?_⟩
    rw [setReg_sp, hsp, setReg_sp]
    exact ⟨rfl, by simp [writesRegs, fieldReg_of_eq hr, withRegs_byteAt]⟩
  | prn r k hr =>
    have hk := hread k (by simp [readsRegs, fieldReg_of_eq hr])
    exact ⟨_, .prn r k hr, by rw [hk]; rfl, nofun⟩
  | jmp r k hr =>
    have hk := hread k (by simp [readsRegs, fieldReg_of_eq hr])
    exact ⟨_, .jmp r k hr, by rw [hk]; rfl, nofun⟩
  | jeq r k hr =>
    have hk (hE : flagE s.fl = true) := hread k (by simp [readsRegs, hE, fieldReg_of_eq hr])
    exact ⟨_, .jeq r k hr, congrArg s.setPc (ite_congr rfl (fun hE => congrArg _ (hk hE)) fun _ => rfl), nofun⟩
  | jne r k hr =>
    have hk (hE : ¬ flagE s.fl = true) := hread k (by simp [readsRegs, hE, fieldReg_of_eq hr])
    exact ⟨_, .jne r k hr, congrArg s.setPc (ite_congr rfl (fun _ => rfl) fun hE => congrArg _ (hk hE)), nofun⟩
  | ldi r imm k hr => exact ⟨_, .ldi r imm k hr, agreeOn_setReg_advance 3 hr rfl⟩
  | cmp ra rb k l ha hb =>
    have hk := hread k (by simp [readsRegs, fieldReg_of_eq ha])
    have hl := hread l (by simp [readsRegs, fieldReg_of_eq hb])
    exact ⟨_, .cmp ra rb k l ha hb, by rw [hk, hl]; rfl, nofun⟩
  | add ra rb k l ha hb | mul ra rb k l ha hb | and ra rb k l ha hb | or ra rb k l ha hb | xor ra rb k l ha hb =>
    have hk := hread k (by simp [readsRegs, fieldReg_of_eq ha])
    have hl := hread l (by simp [readsRegs, fieldReg_of_eq hb])
    exact ⟨_, by constructor <;> assumption, agreeOn_setReg_advance 3 ha (by rw [hk, hl])⟩

/-- The checks read the register file only through SP, and only a stack instruction's do. -/
theorem executeFault_withRegs {i : Instr}
    (hsp : isStackInstruction i = true → ({ s with regs := regs } : State).sp = s.sp) :
    executeFault i { s with regs := regs } = executeFault i s := by
  refine congrArg (Option.or _) ?_
  cases i with
  | push | call => simp only [ownFault, pushFault, hsp rfl]
  | pop | ret => simp only [ownFault, popFault, hsp rfl]
  | _ => rfl

end OtherRegisters

/-- The four stack instructions have SP in their "reads" column (10_state.md R20). -/
theorem sp_mem_readsRegs {i : Instr} (fl : Byte) (h : isStackInstruction i = true) : 7 ∈ readsRegs i fl := by
  cases i with
  | push | pop | call | ret => simp [readsRegs]
  | _ => contradiction

/-- Settles O29: a fault writes no register and reads none but SP, and for a normal outcome `Completes.regsSameExcept` and
`Completes.withRegs` say it. -/
theorem instructionsUseOnlyTheirRegisters : Obligations.InstructionsUseOnlyTheirRegisters := by
  constructor
  · intro i s t h
    obtain ⟨c, -, rfl⟩ | ⟨-, ht⟩ := exec_cases h
    · exact fun j _ => raise_reg ..
    · exact ht.regsSameExcept
  · intro i s t regs h hread
    obtain ⟨c, hc, rfl⟩ | ⟨-, ht⟩ := exec_cases h
    · have hc' := (executeFault_withRegs fun hi => hread 7 (sp_mem_readsRegs s.fl hi)).trans hc
      exact ⟨_, exec_of_executeFault_some hc', rfl, fun hn => absurd (hn.symm.trans hc) nofun⟩
    · obtain ⟨u, hu, hsame, hwritten⟩ := ht.withRegs hread
      exact ⟨u, exec_of_completes hu, hsame, fun _ => hwritten⟩

end Sys2Proof.Machine
end
